-- ==== Sys2Proof/Word.lean ====
section
/-! DEFINITION. The fixed-width fields, and how a word is held.

The word width `W` is a parameter of the hardware (00_scope.md R5), and every quantity is unsigned (R8), so a word or a
scalar operand is held as the natural number it is, with `w < 2 ^ W` in what can be presented (WellFormed.lean) and in the
invariant of the state (Safety.lean), never as a silent truncation (log entry 2). Fields of a fixed width (selectors, the
command word, FCAUSE, FCMD) are bit vectors. -/

namespace Sys2Proof

/-- A bank selector: a 4-bit field of the command word naming a bank (R14, R61). -/
abbrev BankSel := BitVec 4

end Sys2Proof
end

