-- ==== Sys2Proof/Config.lean ====
section
/-! DEFINITION. What an implementation fixes (00_scope.md R5, R7) and the one free value of the model. -/

namespace Sys2Proof

/-- The four parameters of R5, "fixed when the hardware is built and never changed by any command". -/
structure Config where
  /-- `W`, the word width in bits -/
  w : Nat
  /-- `N`, the words of one wide bitfield -/
  n : Nat
  /-- `NB`, the banks the unit holds -/
  nb : Nat
  /-- `SCANW`, the native width of the scan primitive; no observable effect (R168) -/
  scanw : Nat
  deriving DecidableEq, Repr

/-- `CAP = N·W`, the capacity of one bitfield in bits (R5). -/
abbrev Config.cap (c : Config) : Nat := c.n * c.w

/-- The reference configuration of R7. -/
def Config.reference : Config := { w := 32, n := 2, nb := 4, scanw := 32 }

/-- FREE VALUE (DESIGN CHOICE, safe; log entry 4): the content `BF_init` of word `word` of bank `bank` after the reset
numbered `epoch`, for words of `w` bits. R30: "an arbitrary function ... that every claim quantifies over"; D14: "drawn
afresh at every reset". It has no body, so nothing can be proved of it but that it fits `w` bits. -/
opaque Config.bfInit (w epoch bank word : Nat) : BitVec w

end Sys2Proof
end

