-- ==== Sys2Proof/Syntax.lean ====
section
/-! DEFINITION. The sixteen commands (30_encoding.md R64) with their operands (R67), the presented command triple
(R60) and what a host may do (70_reset_and_hazards.md R235). -/

namespace Sys2Proof

/-- One constructor per row of spec/opcode_table.json. The arguments are the bank selectors and the operands the command
uses, in the order of R70: written bank, read banks, OPA, OPB. -/
inductive Instr where
  | ispow2 (v : Nat)
  | p2align (value alignment : Nat)
  | p2alignd (value alignment : Nat)
  | log2 (u : Nat)
  | ruq (dividend divisor : Nat)
  | tany (src test : Nat)
  | tall (src test : Nat)
  | bfidx (i : Nat)
  | btst (ra : BankSel) (i : Nat)
  | bset (rd : BankSel) (i : Nat)
  | bclr (rd : BankSel) (i : Nat)
  | band (rd ra rb : BankSel)
  | bxor (rd ra rb : BankSel)
  | scanf (ra : BankSel) (c : Nat)
  | rdw (ra : BankSel) (k : Nat)
  | wrw (rd : BankSel) (k data : Nat)
  deriving DecidableEq, Repr

/-- A command as the host presents it: the triple `(CMD, OPA, OPB)` (R60). -/
structure Command where
  cmd : BitVec 32
  opa : Nat
  opb : Nat
  deriving DecidableEq, Repr

/-- The two interactions a host has with the unit (R235). -/
inductive HostAction where
  | command (c : Command)
  | reset
  deriving DecidableEq, Repr

/-- The four formats, by which selector fields a command uses (R62). -/
inductive Format where
  | S | A | D | T
  deriving DecidableEq, Repr

end Sys2Proof
end

