-- ==== Sys2Proof/WellFormed.lean ====
section
/-! DEFINITION. What can be presented on the ports of a given configuration: `OPA` and `OPB` are `W` bits wide
(10_state.md R28, 30_encoding.md R67). -/

namespace Sys2Proof

/-- `v` is a `W`-bit unsigned number (R8). -/
abbrev Config.fits (c : Config) (v : Nat) : Prop := v < 2 ^ c.w

/-- Every scalar operand of the instruction fits the `W`-bit port it arrives on. Selectors need no check here: they are
four bits wide, and a selector `>= NB` is a fault of the machine (R66), not an ill-formed term. -/
def Instr.wellFormed (c : Config) : Instr → Bool
  | .ispow2 v => decide (c.fits v)
  | .p2align value alignment => decide (c.fits value) && decide (c.fits alignment)
  | .p2alignd value alignment => decide (c.fits value) && decide (c.fits alignment)
  | .log2 u => decide (c.fits u)
  | .ruq dividend divisor => decide (c.fits dividend) && decide (c.fits divisor)
  | .tany src test => decide (c.fits src) && decide (c.fits test)
  | .tall src test => decide (c.fits src) && decide (c.fits test)
  | .bfidx i => decide (c.fits i)
  | .btst _ i => decide (c.fits i)
  | .bset _ i => decide (c.fits i)
  | .bclr _ i => decide (c.fits i)
  | .band _ _ _ => true
  | .bxor _ _ _ => true
  | .scanf _ cursor => decide (c.fits cursor)
  | .rdw _ k => decide (c.fits k)
  | .wrw _ k data => decide (c.fits k) && decide (c.fits data)

/-- Both operands of a presented command fit the ports. -/
def Command.wellFormed (c : Config) (m : Command) : Bool := decide (c.fits m.opa) && decide (c.fits m.opb)

/-- What a host can present: a command whose operands fit the ports, or RESET. -/
def HostAction.wellFormed (c : Config) : HostAction → Bool
  | .command m => m.wellFormed c
  | .reset => true

end Sys2Proof
end

