-- ==== Sys2Proof/Decode.lean ====
section
/-! DEFINITION. Decoding and encoding of the command word (30_encoding.md R60 to R69), and the opcode table. -/

namespace Sys2Proof

/-- Why a command word is no command; both are `ILLEGAL_CMD` (R63, R65). -/
inductive DecodeError where
  /-- opcode `0x00` or `0x11` to `0xFF` (R65) -/
  | reservedOpcode
  /-- a 1 in the ZERO field or in a selector field the format does not use (R63) -/
  | unusedFieldSet
  deriving DecidableEq, Repr

/-- `OP = CMD[7:0]` (R61). -/
def fieldOp (cmd : BitVec 32) : BitVec 8 := cmd.extractLsb' 0 8
/-- `RD = CMD[11:8]` (R61). -/
def fieldRd (cmd : BitVec 32) : BankSel := cmd.extractLsb' 8 4
/-- `RA = CMD[15:12]` (R61). -/
def fieldRa (cmd : BitVec 32) : BankSel := cmd.extractLsb' 12 4
/-- `RB = CMD[19:16]` (R61). -/
def fieldRb (cmd : BitVec 32) : BankSel := cmd.extractLsb' 16 4

/-- The format of each command (R62). -/
def formatOf : Instr → Format
  | .ispow2 _ | .p2align _ _ | .p2alignd _ _ | .log2 _ | .ruq _ _ | .tany _ _ | .tall _ _ | .bfidx _ => .S
  | .btst _ _ | .scanf _ _ | .rdw _ _ => .A
  | .bset _ _ | .bclr _ _ | .wrw _ _ _ => .D
  | .band _ _ _ | .bxor _ _ _ => .T

/-- `usedmask` of R72: the opcode and the selector fields the format uses. Its complement must be 0 (R62, R63). -/
def usedMask : Format → BitVec 32
  | .S => 0x000000FF#32
  | .A => 0x0000F0FF#32
  | .D => 0x00000FFF#32
  | .T => 0x000FFFFF#32

/-- The opcode map of R64, with the operand assembly of R67. -/
def assemble (c : Command) : Option Instr :=
  match (fieldOp c.cmd).toNat with
  | 0x01 => some (.ispow2 c.opa)
  | 0x02 => some (.p2align c.opa c.opb)
  | 0x03 => some (.p2alignd c.opa c.opb)
  | 0x04 => some (.log2 c.opa)
  | 0x05 => some (.ruq c.opa c.opb)
  | 0x06 => some (.tany c.opa c.opb)
  | 0x07 => some (.tall c.opa c.opb)
  | 0x08 => some (.bfidx c.opa)
  | 0x09 => some (.btst (fieldRa c.cmd) c.opa)
  | 0x0A => some (.bset (fieldRd c.cmd) c.opa)
  | 0x0B => some (.bclr (fieldRd c.cmd) c.opa)
  | 0x0C => some (.band (fieldRd c.cmd) (fieldRa c.cmd) (fieldRb c.cmd))
  | 0x0D => some (.bxor (fieldRd c.cmd) (fieldRa c.cmd) (fieldRb c.cmd))
  | 0x0E => some (.scanf (fieldRa c.cmd) c.opa)
  | 0x0F => some (.rdw (fieldRa c.cmd) c.opa)
  | 0x10 => some (.wrw (fieldRd c.cmd) c.opa c.opb)
  | _ => none

/-- Step 2 of R72: the opcode must be on the map, and every bit outside the used fields must be 0. Total on every
command. -/
def decode (c : Command) : Except DecodeError Instr :=
  match assemble c with
  | none => .error .reservedOpcode
  | some i => if c.cmd &&& ~~~(usedMask (formatOf i)) = 0#32 then .ok i else .error .unusedFieldSet

/-! ### The encoder -/

/-- The opcode of each command (R64). -/
def opcodeOf : Instr → BitVec 8
  | .ispow2 _ => 0x01#8
  | .p2align _ _ => 0x02#8
  | .p2alignd _ _ => 0x03#8
  | .log2 _ => 0x04#8
  | .ruq _ _ => 0x05#8
  | .tany _ _ => 0x06#8
  | .tall _ _ => 0x07#8
  | .bfidx _ => 0x08#8
  | .btst _ _ => 0x09#8
  | .bset _ _ => 0x0A#8
  | .bclr _ _ => 0x0B#8
  | .band _ _ _ => 0x0C#8
  | .bxor _ _ _ => 0x0D#8
  | .scanf _ _ => 0x0E#8
  | .rdw _ _ => 0x0F#8
  | .wrw _ _ _ => 0x10#8

/-- The command word of R61, bit 31 on the left: ZERO, RB, RA, RD, OP. -/
def packCmd (rb ra rd : BankSel) (op : BitVec 8) : BitVec 32 := 0#12 ++ rb ++ ra ++ rd ++ op

/-- The command word of an instruction: its opcode and its selectors, every unused field 0 (R61 to R63). -/
def encodeCmd (i : Instr) : BitVec 32 :=
  match i with
  | .btst ra _ | .scanf ra _ | .rdw ra _ => packCmd 0#4 ra 0#4 (opcodeOf i)
  | .bset rd _ | .bclr rd _ | .wrw rd _ _ => packCmd 0#4 0#4 rd (opcodeOf i)
  | .band rd ra rb | .bxor rd ra rb => packCmd rb ra rd (opcodeOf i)
  | .ispow2 _ | .p2align _ _ | .p2alignd _ _ | .log2 _ | .ruq _ _ | .tany _ _ | .tall _ _ | .bfidx _ =>
    packCmd 0#4 0#4 0#4 (opcodeOf i)

/-- What the instruction presents on `OPA`; an ignored port is presented as 0 (R67, R70). -/
def encodeOpa : Instr → Nat
  | .ispow2 v => v
  | .p2align value _ => value
  | .p2alignd value _ => value
  | .log2 u => u
  | .ruq dividend _ => dividend
  | .tany src _ => src
  | .tall src _ => src
  | .bfidx i => i
  | .btst _ i => i
  | .bset _ i => i
  | .bclr _ i => i
  | .band _ _ _ => 0
  | .bxor _ _ _ => 0
  | .scanf _ cursor => cursor
  | .rdw _ k => k
  | .wrw _ k _ => k

/-- What the instruction presents on `OPB`; an ignored port is presented as 0 (R67, R70). -/
def encodeOpb : Instr → Nat
  | .p2align _ alignment => alignment
  | .p2alignd _ alignment => alignment
  | .ruq _ divisor => divisor
  | .tany _ test => test
  | .tall _ test => test
  | .wrw _ _ data => data
  | .ispow2 _ | .log2 _ | .bfidx _ | .btst _ _ | .bset _ _ | .bclr _ _ | .band _ _ _ | .bxor _ _ _ | .scanf _ _
  | .rdw _ _ => 0

/-- The command a host presents for an instruction (R60, R70). -/
def encode (i : Instr) : Command := { cmd := encodeCmd i, opa := encodeOpa i, opb := encodeOpb i }

/-- The selectors an instruction uses, in the order RD, RA, RB of R72 step 3. -/
def selectorsOf : Instr → List BankSel
  | .ispow2 _ | .p2align _ _ | .p2alignd _ _ | .log2 _ | .ruq _ _ | .tany _ _ | .tall _ _ | .bfidx _ => []
  | .btst ra _ | .scanf ra _ | .rdw ra _ => [ra]
  | .bset rd _ | .bclr rd _ | .wrw rd _ _ => [rd]
  | .band rd ra rb | .bxor rd ra rb => [rd, ra, rb]

/-! ### The opcode table -/

/-- A row of spec/opcode_table.json: a word `c` selects it exactly when `c & mask = pattern` (R62). -/
structure OpcodeRow where
  mnemonic : String
  pattern : BitVec 32
  mask : BitVec 32
  deriving DecidableEq, Repr

/-- The sixteen rows, written from R62 and R64. -/
def opcodeTable : List OpcodeRow :=
  [ ⟨"ISPOW2", 0x00000001#32, 0xFFFFFFFF#32⟩, ⟨"P2ALIGN", 0x00000002#32, 0xFFFFFFFF#32⟩,
    ⟨"P2ALIGND", 0x00000003#32, 0xFFFFFFFF#32⟩, ⟨"LOG2", 0x00000004#32, 0xFFFFFFFF#32⟩,
    ⟨"RUQ", 0x00000005#32, 0xFFFFFFFF#32⟩, ⟨"TANY", 0x00000006#32, 0xFFFFFFFF#32⟩,
    ⟨"TALL", 0x00000007#32, 0xFFFFFFFF#32⟩, ⟨"BFIDX", 0x00000008#32, 0xFFFFFFFF#32⟩,
    ⟨"BTST", 0x00000009#32, 0xFFFF0FFF#32⟩, ⟨"BSET", 0x0000000A#32, 0xFFFFF0FF#32⟩,
    ⟨"BCLR", 0x0000000B#32, 0xFFFFF0FF#32⟩, ⟨"BAND", 0x0000000C#32, 0xFFF000FF#32⟩,
    ⟨"BXOR", 0x0000000D#32, 0xFFF000FF#32⟩, ⟨"SCANF", 0x0000000E#32, 0xFFFF0FFF#32⟩,
    ⟨"RDW", 0x0000000F#32, 0xFFFF0FFF#32⟩, ⟨"WRW", 0x00000010#32, 0xFFFFF0FF#32⟩ ]

/-- The command an instruction's bits stand for, bit 0 the least significant bit of the command word and `OPA`, `OPB`
counting on from it at width `w`; bits above `nbits` are 0 (log entry 10). -/
def commandOfBits (w nbits bits : Nat) : Command :=
  let b := bits % 2 ^ nbits
  { cmd := BitVec.ofNat 32 b, opa := b / 2 ^ 32 % 2 ^ w, opb := b / 2 ^ (32 + w) % 2 ^ w }

/-- The instruction this decoder reads from `nbits` bits numbered as spec/opcode_table.json numbers them. The table gives
the command word only, so the operands are 0 unless `nbits` goes on beyond it (at the reference width). -/
def decodeTableWord (nbits w : Nat) : Option Instr := (decode (commandOfBits Config.reference.w nbits w)).toOption

end Sys2Proof
end

