-- ==== Sys2Proof/Machine/State.lean ====
section
/-! DEFINITION. The state of the unit (10_state.md), the two ways the model itself can stop, and the state after
reset. -/

namespace Sys2Proof.Machine

/-- The fault causes of R200 that a command can raise; their codes are `causeCode` (Ops.lean). These are NOT stops of
the model: raising one is a next state (R203). -/
inductive Cause where
  | illegalCmd
  | bankRange
  | indexRange
  | alignNotPow2
  | divideByZero
  | alignOverflow
  deriving DecidableEq, Repr

/-- Why the model stops with a fault. -/
inductive Fault where
  /-- Raised by `orFault` (Ops.lean) when a command reads or writes a word outside the store, a location R40 says does
  not exist. R53: no command does so; no state that meets the invariant `State.Inv` raises it. Safe. -/
  | noSuchWord
  deriving DecidableEq, Repr

/-- Why the model refuses to run. -/
inductive Refusal where
  /-- Raised by `exec` for an instruction that has no meaning yet: none. Safe. -/
  | notModelled (mnemonic : String)
  /-- Raised by `serveHost` (Issue.lean) when the parameters violate R6: "a configuration outside the constraints ... is
  refused" (93_implementation_defined.md U15). Safe. -/
  | badConfiguration
  /-- Raised by `issue` (Issue.lean) when a presented operand needs more than `W` bits, which no `W`-bit port can carry
  (R28, R67); log entry 7. Safe. -/
  | operandTooWide
  deriving DecidableEq, Repr

/-- The bitfield store `BF` (R21): the list of banks, each the list of its words, word 0 first. Every location exists
from reset on, so no location is left unlisted; `Memory.wf` (Ops.lean) is its one canonical form (log entry 3). -/
abbrev Memory := List (List Nat)

/-- The outputs produced once per command (R28): `FAULT` and `FCMD` are the registers' values after the step. -/
structure Response where
  res0 : Nat
  res1 : Nat
  flag : Bool
  fault : BitVec 4
  fcmd : BitVec 32
  deriving DecidableEq, Repr

/-- R20: the architectural state is `BF`, `FCAUSE`, `FCMD`. Beside it stand the parameters (R5), the interface (R28) and
the model's counter of resets. -/
structure State where
  /-- the parameters `W`, `N`, `NB`, `SCANW` (R5); no step changes them (log entry 1) -/
  cfg : Config
  /-- the bitfield store `BF` (R21) -/
  bf : Memory
  /-- the fault cause register (R26) -/
  fcause : BitVec 4
  /-- the fault command register (R27) -/
  fcmd : BitVec 32
  /-- what the host will present, first to last: host state, not the unit's (R24, R237; log entry 5) -/
  pending : List HostAction
  /-- the output ports as the last command left them; none when no command has answered since reset (R30; log entry 6) -/
  response : Option Response
  /-- the model's own counter of resets: it numbers the free contents of `BF` (log entry 4) -/
  resets : Nat
  deriving DecidableEq, Repr

/-- The unspecified, stable content of `BF` after the reset numbered `epoch` (R30): every word of every bank is the free
value `Config.bfInit`. -/
def freshStore (c : Config) (epoch : Nat) : Memory :=
  (List.range c.nb).map fun b => (List.range c.n).map fun k => (Config.bfInit c.w epoch b k).toNat

/-- The machine right after reset (R30) in the reference configuration (R7): `FCAUSE = 0`, `FCMD = 0`, `BF` arbitrary;
the host has presented nothing and no command has answered. -/
def State.reset : State where
  cfg := Config.reference
  bf := freshStore Config.reference 0
  fcause := 0#4
  fcmd := 0#32
  pending := []
  response := none
  resets := 0

end Sys2Proof.Machine
end

