-- ==== Sys2Proof/Machine/Operands.lean ====
section
/-! DEFINITION. The helper functions on words and indices that the rules share (00_scope.md R8, R10), and the
constraints on the parameters (R6). All are total functions on unsigned numbers and read no state. -/

namespace Sys2Proof.Machine

/-! ### Operators on `W`-bit words (R8) -/

/-- `~w` is `2^W - 1 - w`. -/
def wordNot (w : Nat) (a : Nat) : Nat := 2 ^ w - 1 - a

/-- `a << s` is `(a · 2^s) mod 2^W`, for `s < W`. -/
def wordShl (w : Nat) (a : Nat) (s : Nat) : Nat := a * 2 ^ s % 2 ^ w

/-- The word of `W` ones, `2^W - 1`. -/
def allOnes (w : Nat) : Nat := 2 ^ w - 1

/-! ### Power-of-two helpers (40_align_pow2.md) -/

/-- The number of `p` in `0..W-1` with `v[p] = 1`. -/
def bitCount (w : Nat) (v : Nat) : Nat := (List.range w).countP fun p => v.testBit p

/-- `ispow2(v)` of R100: `v` is not 0 and exactly one of its bits is 1. -/
def ispow2 (w : Nat) (v : Nat) : Bool := v != 0 && bitCount w v == 1

/-- The loop of R103 with a bound on its turns: while `t > 1`, shift `t` right and count. -/
def log2Loop : Nat → Nat → Nat → Nat
  | 0, _, n => n
  | turns + 1, t, n => if 1 < t then log2Loop turns (t >>> 1) (n + 1) else n

/-- `log2floor(u)` of R103; the loop "ends after at most W-1 turns". -/
def log2floor (w : Nat) (u : Nat) : Nat := log2Loop w u 0

/-- `((value + alignment - 1) div alignment) * alignment` of R101, on unbounded integers. -/
def alignUp (value alignment : Nat) : Nat := (value + alignment - 1) / alignment * alignment

/-- `value - (value mod alignment)` of R102. -/
def alignDown (value alignment : Nat) : Nat := value - value % alignment

/-- `q + (1 if dividend mod divisor != 0 else 0)` of R104; no intermediate that can wrap. -/
def roundUpQuotient (dividend divisor : Nat) : Nat :=
  dividend / divisor + if dividend % divisor ≠ 0 then 1 else 0

/-! ### Indexing (42_bitfield_index.md) -/

/-- `idx(i) = (i div W, 1 << (i mod W))` (R130). -/
def idx (w : Nat) (i : Nat) : Nat × Nat := (i / w, wordShl w 1 (i % w))

/-! ### Forward scan (45_forward_scan.md) -/

/-- `ffs(x)` of R160: 0 for 0, else 1 + the least `p < W` with `x[p] = 1`. -/
def ffs (w : Nat) (x : Nat) : Nat :=
  match (List.range w).find? fun p => x.testBit p with
  | none => 0
  | some p => 1 + p

/-- R164: the first word is ANDed with `(2^W - 1) << bp`, dropping the bits below the cursor. -/
def maskFirst (w bp : Nat) : List Nat → List Nat
  | [] => []
  | x :: xs => (x &&& wordShl w (allOnes w) bp) :: xs

/-- The loop of R161 from word `k` on: the first non-zero word gives `k·W + ffs(w) - 1`. -/
def scanWords (w : Nat) : Nat → List Nat → Option Nat
  | _, [] => none
  | k, x :: xs => if x ≠ 0 then some (k * w + ffs w x - 1) else scanWords w (k + 1) xs

/-! ### The parameters -/

/-- `v = 2^e` for some `e`. -/
def powerOfTwo (v : Nat) : Bool := v != 0 && v == 2 ^ v.log2

/-- The constraints of R6: `SCANW` a power of two and at least 8, `W = SCANW · 2^k`, `N >= 1`, `1 <= NB <= 16`,
`CAP <= 2^W - 1`. -/
def configValid (c : Config) : Bool :=
  powerOfTwo c.scanw && decide (8 ≤ c.scanw) && c.w % c.scanw == 0 && powerOfTwo (c.w / c.scanw) && decide (1 ≤ c.n)
    && decide (1 ≤ c.nb) && decide (c.nb ≤ 16) && decide (c.cap ≤ 2 ^ c.w - 1)

end Sys2Proof.Machine
end

