-- ==== Sys2Proof/Machine/Flags.lean ====
section
/-! DEFINITION. What each command that answers a Boolean drives on `FLAG` (30_encoding.md R68); 1 is true. No flag
persists (10_state.md R25). -/

namespace Sys2Proof.Machine

/-- ISPOW2 (R100). -/
def flagIspow2 (w : Nat) (v : Nat) : Bool := ispow2 w v

/-- TANY (R120): `(src & test) != 0`. -/
def flagTany (src test : Nat) : Bool := decide (src &&& test ≠ 0)

/-- TALL (R121): `(src & test) = test`. -/
def flagTall (src test : Nat) : Bool := decide (src &&& test = test)

/-- BTST (R140): `(BF[RA][wi] & m) != 0`. -/
def flagBtst (word mask : Nat) : Bool := decide (word &&& mask ≠ 0)

/-- SCANF (R161): a bit was found. -/
def flagScanf (found : Option Nat) : Bool := found.isSome

end Sys2Proof.Machine
end

