-- ==== Sys2Proof/Machine/Ops.lean ====
section
/-! DEFINITION. The shared operations of every command: reads and writes of the store (20_memory.md), the response
(30_encoding.md R68), fault entry and the faulted unit (60_exceptions.md R203, R204), reset (70_reset_and_hazards.md
R230). -/

namespace Sys2Proof.Machine

/-- The three outcomes of a step. -/
abbrev Result := Host.Outcome State Fault Refusal

/-! ### The store -/

/-- The one canonical form of `BF` (R21): `NB` banks of `N` words, every word a `W`-bit number. -/
def Memory.wf (c : Config) (m : Memory) : Bool :=
  m.length == c.nb && m.all fun bank => bank.length == c.n && bank.all fun x => decide (c.fits x)

/-- `MemRead(b, k)` (R40); `none` where the location does not exist. -/
def memRead (b k : Nat) (s : State) : Option Nat := s.bf[b]?.bind fun bank => bank[k]?

/-- `MemWrite(b, k, v)` (R40); `none` where the location does not exist. -/
def memWrite (b k : Nat) (v : Nat) (s : State) : Option State :=
  match s.bf[b]? with
  | none => none
  | some bank => if k < bank.length then some { s with bf := s.bf.set b (bank.set k v) } else none

/-- The words `k, k+1, ..` of bank `b`, `count` of them. -/
def memReadFrom (b : Nat) (s : State) : (count k : Nat) → Option (List Nat)
  | 0, _ => some []
  | count + 1, k => (memRead b k s).bind fun x => (memReadFrom b s count (k + 1)).map fun xs => x :: xs

/-- The logical bit `i` of bank `b` (R21): `BF[b][i div W][i mod W]`; false where the location does not exist. -/
def logicalBit (b i : Nat) (s : State) : Bool := ((memRead b (i / s.cfg.w) s).getD 0).testBit (i % s.cfg.w)

/-- The loop of R150 and R151, `count` positions from `k` on: `BF[RD][k] <- BF[RA][k] OP BF[RB][k]`, each position read
and then written in the store as the positions before it left it. -/
def combineFrom (op : Nat → Nat → Nat) (rd ra rb : Nat) : (count k : Nat) → State → Option State
  | 0, _, s => some s
  | count + 1, k, s =>
    (memRead ra k s).bind fun x => (memRead rb k s).bind fun y =>
      (memWrite rd k (op x y) s).bind fun t => combineFrom op rd ra rb count (k + 1) t

/-- A location that does not exist stops the model (R40, R53; log entry 9). -/
def orFault {α : Type} (r : Option α) (body : α → Result) : Result :=
  match r with
  | some a => body a
  | none => .fault .noSuchWord

/-! ### The response -/

/-- The end of a command that runs (R72 step 5, R68): the ports carry what the command assigned, and `FAULT`, `FCMD` the
registers. -/
def complete (res0 res1 : Nat) (flag : Bool) (s : State) : State :=
  { s with response := some { res0 := res0, res1 := res1, flag := flag, fault := s.fcause, fcmd := s.fcmd } }

/-! ### Faults -/

/-- The code of each cause (R200). -/
def causeCode : Cause → BitVec 4
  | .illegalCmd => 1#4
  | .bankRange => 2#4
  | .indexRange => 3#4
  | .alignNotPow2 => 4#4
  | .divideByZero => 5#4
  | .alignOverflow => 6#4

/-- Fault entry (R203), for the command word `cmd`: `FCAUSE <- c`, `FCMD <- CMD`, `BF` unchanged, the response all 0 but
for `FAULT = c`. There is no return from a fault but reset (R205). -/
def raiseFault (c : Cause) (cmd : BitVec 32) (s : State) : State :=
  complete 0 0 false { s with fcause := causeCode c, fcmd := cmd }

/-- The faulted unit ignores a command (R204): the state stays, the response is 0 with `FAULT = FCAUSE`. -/
def ignoreCommand (s : State) : State := complete 0 0 false s

/-- Step 1 of R72 around the rest of the step. -/
def unlessFaulted (s : State) (body : Result) : Result :=
  if s.fcause = 0#4 then body else .next (ignoreCommand s)

/-- Fault entry of the instruction `i`, whose command word `FCMD` keeps (R27; log entry 8). -/
def faultOf (c : Cause) (i : Instr) (s : State) : Result := .next (raiseFault c (encodeCmd i) s)

/-- A selector names an existing bank (R66). -/
def bankExists (c : Config) (sel : BankSel) : Bool := decide (sel.toNat < c.nb)

/-- Steps 1 and 3 of R72 around the pseudocode of the command `i`: the faulted unit ignores it, and every selector it
uses must be `< NB`. -/
def guarded (i : Instr) (s : State) (body : Result) : Result :=
  unlessFaulted s (if (selectorsOf i).all (bankExists s.cfg) then body else faultOf .bankRange i s)

/-- Steps 1 and 2 of R72 for a command word that is no command (R63, R65). -/
def illegalCommand (cmd : BitVec 32) (s : State) : Result :=
  unlessFaulted s (.next (raiseFault .illegalCmd cmd s))

/-! ### Reset -/

/-- RESET (R230), from any state: `FCAUSE = 0`, `FCMD = 0`, a fresh arbitrary `BF`, no response. The host's list is the
host's own and stays. -/
def resetUnit (s : State) : State :=
  { s with
    bf := freshStore s.cfg (s.resets + 1), fcause := 0#4, fcmd := 0#32, response := none, resets := s.resets + 1 }

end Sys2Proof.Machine
end

