-- ==== Sys2Proof/Machine/AlignPow2.lean ====
section
/-! DEFINITION. Alignment and power-of-two arithmetic: ISPOW2, P2ALIGN, P2ALIGND, LOG2, RUQ (40_align_pow2.md). -/

namespace Sys2Proof.Machine

/-- ISPOW2 (R100): `FLAG` is 1 exactly when one bit of `v` is 1. -/
def execIspow2 (v : Nat) (s : State) : Result :=
  guarded (.ispow2 v) s (.next (complete 0 0 (flagIspow2 s.cfg.w v) s))

/-- P2ALIGN (R101): the precondition first, then the result on unbounded integers, which must fit `W` bits. -/
def execP2align (value alignment : Nat) (s : State) : Result :=
  guarded (.p2align value alignment) s
    (if ispow2 s.cfg.w alignment then
      if 2 ^ s.cfg.w ≤ alignUp value alignment then faultOf .alignOverflow (.p2align value alignment) s
      else .next (complete (alignUp value alignment) 0 false s)
    else faultOf .alignNotPow2 (.p2align value alignment) s)

/-- P2ALIGND (R102). -/
def execP2alignd (value alignment : Nat) (s : State) : Result :=
  guarded (.p2alignd value alignment) s
    (if ispow2 s.cfg.w alignment then .next (complete (alignDown value alignment) 0 false s)
    else faultOf .alignNotPow2 (.p2alignd value alignment) s)

/-- LOG2 (R103). -/
def execLog2 (u : Nat) (s : State) : Result :=
  guarded (.log2 u) s (.next (complete (log2floor s.cfg.w u) 0 false s))

/-- RUQ (R104). -/
def execRuq (dividend divisor : Nat) (s : State) : Result :=
  guarded (.ruq dividend divisor) s
    (if divisor = 0 then faultOf .divideByZero (.ruq dividend divisor) s
    else .next (complete (roundUpQuotient dividend divisor) 0 false s))

end Sys2Proof.Machine
end

