-- ==== Sys2Proof/Machine/Combine.lean ====
section
/-! DEFINITION. Wide-bitfield bulk combine: BAND, BXOR (44_bulk_combine.md). -/

namespace Sys2Proof.Machine

/-- The sweep of R150 and R151 over all `N` words; any aliasing of the three banks is legal (R152). -/
def combineBanks (op : Nat → Nat → Nat) (rd ra rb : BankSel) (s : State) : Result :=
  orFault (combineFrom op rd.toNat ra.toNat rb.toNat s.cfg.n 0 s) fun t => .next (complete 0 0 false t)

/-- BAND (R150). -/
def execBand (rd ra rb : BankSel) (s : State) : Result :=
  guarded (.band rd ra rb) s (combineBanks (fun x y => x &&& y) rd ra rb s)

/-- BXOR (R151). -/
def execBxor (rd ra rb : BankSel) (s : State) : Result :=
  guarded (.bxor rd ra rb) s (combineBanks (fun x y => x ^^^ y) rd ra rb s)

end Sys2Proof.Machine
end

