-- ==== Sys2Proof/Machine/FlagTest.lean ====
section
/-! DEFINITION. Single-word flag testing: TANY, TALL (41_flag_test.md). -/

namespace Sys2Proof.Machine

/-- TANY (R120). -/
def execTany (src test : Nat) (s : State) : Result :=
  guarded (.tany src test) s (.next (complete 0 0 (flagTany src test) s))

/-- TALL (R121). -/
def execTall (src test : Nat) (s : State) : Result :=
  guarded (.tall src test) s (.next (complete 0 0 (flagTall src test) s))

end Sys2Proof.Machine
end

