-- ==== Sys2Proof/Machine/HostWord.lean ====
section
/-! DEFINITION. Host word access: RDW, WRW (46_host_word_access.md). -/

namespace Sys2Proof.Machine

/-- RDW (R180): `OPA` is a word index, compared with `N`. -/
def execRdw (ra : BankSel) (k : Nat) (s : State) : Result :=
  guarded (.rdw ra k) s
    (if s.cfg.n ≤ k then faultOf .indexRange (.rdw ra k) s
    else orFault (memRead ra.toNat k s) fun x => .next (complete x 0 false s))

/-- WRW (R181). -/
def execWrw (rd : BankSel) (k data : Nat) (s : State) : Result :=
  guarded (.wrw rd k data) s
    (if s.cfg.n ≤ k then faultOf .indexRange (.wrw rd k data) s
    else orFault (memWrite rd.toNat k data s) fun t => .next (complete 0 0 false t))

end Sys2Proof.Machine
end

