-- ==== Sys2Proof/Machine/Index.lean ====
section
/-! DEFINITION. Wide-bitfield indexing as a command: BFIDX (42_bitfield_index.md). -/

namespace Sys2Proof.Machine

/-- BFIDX (R131): the word index on `RES0`, the in-word mask on `RES1`. -/
def execBfidx (i : Nat) (s : State) : Result :=
  guarded (.bfidx i) s
    (if s.cfg.cap ≤ i then faultOf .indexRange (.bfidx i) s
    else .next (complete (idx s.cfg.w i).1 (idx s.cfg.w i).2 false s))

end Sys2Proof.Machine
end

