-- ==== Sys2Proof/Machine/Mutation.lean ====
section
/-! DEFINITION. Wide-bitfield test, set, clear: BTST, BSET, BCLR (43_bitfield_mutation.md). -/

namespace Sys2Proof.Machine

/-- The shared read-modify-write of BSET and BCLR: with `(wi, m) = idx(i)`, `BF[RD][wi] <- f(BF[RD][wi], m)`. -/
def modifyBit (f : Nat → Nat → Nat) (rd : BankSel) (i : Nat) (s : State) : Result :=
  orFault (memRead rd.toNat (idx s.cfg.w i).1 s) fun x =>
    orFault (memWrite rd.toNat (idx s.cfg.w i).1 (f x (idx s.cfg.w i).2) s) fun t => .next (complete 0 0 false t)

/-- BTST (R140): mutates nothing (90_conflicts.md C7). -/
def execBtst (ra : BankSel) (i : Nat) (s : State) : Result :=
  guarded (.btst ra i) s
    (if s.cfg.cap ≤ i then faultOf .indexRange (.btst ra i) s
    else orFault (memRead ra.toNat (idx s.cfg.w i).1 s) fun x =>
      .next (complete 0 0 (flagBtst x (idx s.cfg.w i).2) s))

/-- BSET (R141): `BF[RD][wi] <- BF[RD][wi] | m`. -/
def execBset (rd : BankSel) (i : Nat) (s : State) : Result :=
  guarded (.bset rd i) s
    (if s.cfg.cap ≤ i then faultOf .indexRange (.bset rd i) s
    else modifyBit (fun x m => x ||| m) rd i s)

/-- BCLR (R142): `BF[RD][wi] <- BF[RD][wi] & ~m`. -/
def execBclr (rd : BankSel) (i : Nat) (s : State) : Result :=
  guarded (.bclr rd i) s
    (if s.cfg.cap ≤ i then faultOf .indexRange (.bclr rd i) s
    else modifyBit (fun x m => x &&& wordNot s.cfg.w m) rd i s)

end Sys2Proof.Machine
end

