-- ==== Sys2Proof/Machine/Scan.lean ====
section
/-! DEFINITION. Forward bit scan: SCANF (45_forward_scan.md). -/

namespace Sys2Proof.Machine

/-- SCANF (R161): the words from the cursor's on are read (R43; log entry 11), the first is masked below the cursor
(R164), and the first that is not 0 gives the index; when none is, `RES0 = 0` with `FLAG = 0` (R165). At `c = CAP` no
word is read. -/
def execScanf (ra : BankSel) (c : Nat) (s : State) : Result :=
  guarded (.scanf ra c) s
    (if s.cfg.cap < c then faultOf .indexRange (.scanf ra c) s
    else orFault (memReadFrom ra.toNat s (s.cfg.n - c / s.cfg.w) (c / s.cfg.w)) fun words =>
      let found := scanWords s.cfg.w (c / s.cfg.w) (maskFirst s.cfg.w (c % s.cfg.w) words)
      .next (complete (found.getD 0) 0 (flagScanf found) s))

end Sys2Proof.Machine
end

