-- ==== Sys2Proof/Machine/Dispatch.lean ====
section
/-! DEFINITION. Dispatch: one arm per command of 30_encoding.md R64 (R72 step 4). -/

namespace Sys2Proof.Machine

/-- The step of a decoded command: `Step` of R72 after its decode. -/
def exec (i : Instr) (s : State) : Host.Outcome State Fault Refusal :=
  match i with
  | .ispow2 v => Sys2Proof.Machine.execIspow2 v s
  | .p2align value alignment => Sys2Proof.Machine.execP2align value alignment s
  | .p2alignd value alignment => Sys2Proof.Machine.execP2alignd value alignment s
  | .log2 u => Sys2Proof.Machine.execLog2 u s
  | .ruq dividend divisor => Sys2Proof.Machine.execRuq dividend divisor s
  | .tany src test => Sys2Proof.Machine.execTany src test s
  | .tall src test => Sys2Proof.Machine.execTall src test s
  | .bfidx k => Sys2Proof.Machine.execBfidx k s
  | .btst ra k => Sys2Proof.Machine.execBtst ra k s
  | .bset rd k => Sys2Proof.Machine.execBset rd k s
  | .bclr rd k => Sys2Proof.Machine.execBclr rd k s
  | .band rd ra rb => Sys2Proof.Machine.execBand rd ra rb s
  | .bxor rd ra rb => Sys2Proof.Machine.execBxor rd ra rb s
  | .scanf ra c => Sys2Proof.Machine.execScanf ra c s
  | .rdw ra k => Sys2Proof.Machine.execRdw ra k s
  | .wrw rd k data => Sys2Proof.Machine.execWrw rd k data s

end Sys2Proof.Machine
end

