-- ==== Sys2Proof/Machine/Issue.lean ====
section
/-! DEFINITION. Presenting a command to the unit and serving the host (30_encoding.md R72, 70_reset_and_hazards.md R235). -/

namespace Sys2Proof.Machine

/-- `Step(S, CMD, OPA, OPB)` of R72: a command word that decodes runs, any other is `ILLEGAL_CMD`. A value wider than the
ports cannot be presented (log entry 7). -/
def issue (c : Command) (s : State) : Result :=
  if c.wellFormed s.cfg then
    match decode c with
    | .ok i => exec i s
    | .error _ => illegalCommand c.cmd s
  else .refused .operandTooWide

/-- One interaction of the host with the unit (R235): the next command, or RESET. With nothing presented the unit is idle
and changes nothing (R22 d, R209; log entry 5). A configuration outside R6 is refused (U15). -/
def serveHost (s : State) : Result :=
  if configValid s.cfg then
    match s.pending with
    | [] => .next s
    | .reset :: rest => .next (resetUnit { s with pending := rest })
    | .command c :: rest => issue c { s with pending := rest }
  else .refused .badConfiguration

/-- The host puts a command at the front of what it will present. -/
def presentCommand (c : Command) (s : State) : State := { s with pending := .command c :: s.pending }

end Sys2Proof.Machine
end

