-- ==== Sys2Proof/Machine/Step.lean ====
section
/-! DEFINITION. The step of the machine, and where its next instruction is placed. -/

namespace Sys2Proof.Machine

/-- One step: one interaction with the host (R11, R235, R237). -/
def step (s : State) : Host.Outcome State Fault Refusal := Sys2Proof.Machine.serveHost s

/-- `s` with the instruction of these bits presented as the next command, operands 0 where the bits do not reach them. The
unit fetches nothing (R24): the host presents the command, and `step` takes it from the front of its list. -/
def State.withFetchWord (s : State) (nbits w : Nat) : State :=
  Sys2Proof.Machine.presentCommand (Sys2Proof.commandOfBits s.cfg.w nbits w) s

end Sys2Proof.Machine
end

