-- ==== Sys2Proof/Safety.lean ====
section
/-! DEFINITION. What statements about runs are said in: the invariant of the machine, a run that ended well
(70_reset_and_hazards.md R237), what the fault registers may record (60_exceptions.md R201), and the host's enumeration
loop (45_forward_scan.md R166). -/

namespace Sys2Proof.Machine

/-- The results on the ports fit them, and `FAULT`, `FCMD` show the registers (R28). -/
abbrev Response.fitsPorts (r : Response) (s : State) : Prop :=
  s.cfg.fits r.res0 ∧ s.cfg.fits r.res1 ∧ r.fault = s.fcause ∧ r.fcmd = s.fcmd

/-- The invariant of the machine: the parameters meet R6; `BF` has its shape and its words fit `W` bits (R21); `FCAUSE`
is a code of R200 (R26: 7 to 15 never occur); `FCMD = 0` while `FCAUSE = 0` (R27); the last response fits the ports and
shows the registers (R28); what the host will present fits the ports. -/
abbrev State.Inv (s : State) : Prop :=
  configValid s.cfg = true ∧ Memory.wf s.cfg s.bf = true ∧ s.fcause ≤ 6#4 ∧ (s.fcause = 0#4 → s.fcmd = 0#32) ∧
    (∀ r ∈ s.response, r.fitsPorts s) ∧ ∀ a ∈ s.pending, a.wellFormed s.cfg = true

/-- A unit that will run the next command: the invariant holds and no fault has been raised. -/
abbrev State.Ready (s : State) : Prop := s.Inv ∧ s.fcause = 0#4

/-- R237: a run "ended well exactly when FCAUSE = 0 at the end". -/
abbrev State.EndedWell (s : State) : Prop := s.fcause = 0#4

/-- What R201 says of a recorded cause and its command word: which words can raise which cause. -/
def causeRecordFits (c : Config) (cause : BitVec 4) (cmd : BitVec 32) : Prop :=
  match cause.toNat, decode { cmd := cmd, opa := 0, opb := 0 } with
  | 0, _ => cmd = 0#32
  | 1, .error _ => True
  | 2, .ok i => ∃ sel ∈ selectorsOf i, c.nb ≤ sel.toNat
  | 3, .ok i => (opcodeOf i ∈ [0x08#8, 0x09#8, 0x0A#8, 0x0B#8, 0x0E#8, 0x0F#8, 0x10#8]) ∧ ∀ sel ∈ selectorsOf i, sel.toNat < c.nb
  | 4, .ok i => opcodeOf i = 0x02#8 ∨ opcodeOf i = 0x03#8
  | 5, .ok i => opcodeOf i = 0x05#8
  | 6, .ok i => opcodeOf i = 0x02#8
  | _, _ => False

/-- The host loop of R166 over bank `b`, with a bound on its SCANF commands: the indices reported, and whether the loop
ended because `FLAG = 0` with no fault. -/
def enumerate (b : BankSel) : (calls cursor : Nat) → State → List Nat × Bool
  | 0, _, _ => ([], false)
  | calls + 1, cursor, s =>
    match exec (.scanf b cursor) s with
    | .next t =>
      match t.response with
      | some r =>
        if r.fault ≠ 0#4 then ([], false)
        else if r.flag then
          let rest := enumerate b calls (r.res0 + 1) t
          (r.res0 :: rest.1, rest.2)
        else ([], true)
      | none => ([], false)
    | .fault _ => ([], false)
    | .refused _ => ([], false)

end Sys2Proof.Machine
end

