-- ==== Sys2Proof/Certificates/Slice0/Obligations.lean ====
section
/-! DEFINITION. The statements for the provers, from the numbered rules of spec/. Every statement is over every state, and
so over every configuration that R6 allows; where one holds only in states that meet the machine's invariant, the
invariant is a premise (`State.Inv`, `State.Ready`, or the parts of it the statement needs). -/

namespace Sys2Proof.Claims

open Sys2Proof Sys2Proof.Machine

/-- `s` after a command that answered these results and changed nothing else: `FAULT` and `FCMD` show the registers
(R28, R68). -/
def answered (res0 res1 : Nat) (flag : Bool) (s : State) : State :=
  { s with response := some { res0 := res0, res1 := res1, flag := flag, fault := s.fcause, fcmd := s.fcmd } }

/-- `s` after fault entry with this code and command word (R203): nothing but the two fault registers and the response
changes, and the response is 0 but for `FAULT`. -/
def faultEntered (code : BitVec 4) (cmd : BitVec 32) (s : State) : State :=
  { s with
    fcause := code, fcmd := cmd,
    response := some { res0 := 0, res1 := 0, flag := false, fault := code, fcmd := cmd } }

/-- A result with its next state changed by `f`. -/
def mapNext (f : State → State) : Result → Result
  | .next t => .next (f t)
  | .fault e => .fault e
  | .refused e => .refused e

/-- Every unfaulted unit raises `ILLEGAL_CMD` for a command word with this opcode and a 1 among these unused bits
(R63). -/
def unusedBitsFault (op : BitVec 8) (unused : BitVec 32) : Prop :=
  ∀ (s : State) (c : Command), s.fcause = 0#4 → c.wellFormed s.cfg = true → c.cmd.extractLsb' 0 8 = op →
    c.cmd &&& unused ≠ 0#32 → issue c s = .next (faultEntered 1#4 c.cmd s)

/-- R63 and R65 on the command word as a number: a reserved opcode, or a 1 in the ZERO field or in a selector field the
command does not use. -/
def illegalWord (v : Nat) : Bool :=
  let op := v % 256
  let rd := v / 256 % 16
  let ra := v / 4096 % 16
  let rb := v / 65536 % 16
  op == 0 || decide (0x10 < op) || decide (v / 1048576 ≠ 0)
    || (decide (1 ≤ op ∧ op ≤ 8) && decide (rd ≠ 0 ∨ ra ≠ 0 ∨ rb ≠ 0))
    || ([0x09, 0x0E, 0x0F].contains op && decide (rd ≠ 0 ∨ rb ≠ 0))
    || ([0x0A, 0x0B, 0x10].contains op && decide (ra ≠ 0 ∨ rb ≠ 0))

/-- The table of R201 in the priority of R202: the cause code a command raises on an unfaulted unit, 0 for none. -/
def faultCodeOf (p : Config) (c : Command) : BitVec 4 :=
  let v := c.cmd.toNat
  let op := v % 256
  let rd := v / 256 % 16
  let ra := v / 4096 % 16
  let rb := v / 65536 % 16
  if illegalWord v then 1#4
  else if ([0x09, 0x0E, 0x0F].contains op && decide (p.nb ≤ ra))
      || ([0x0A, 0x0B, 0x10].contains op && decide (p.nb ≤ rd))
      || ([0x0C, 0x0D].contains op && decide (p.nb ≤ rd ∨ p.nb ≤ ra ∨ p.nb ≤ rb)) then 2#4
  else if ([0x08, 0x09, 0x0A, 0x0B].contains op && decide (p.n * p.w ≤ c.opa))
      || (op == 0x0E && decide (p.n * p.w < c.opa))
      || ([0x0F, 0x10].contains op && decide (p.n ≤ c.opa)) then 3#4
  else if [0x02, 0x03].contains op && !(List.range p.w).any (fun e => c.opb == 2 ^ e) then 4#4
  else if op == 0x05 && c.opb == 0 then 5#4
  else if op == 0x02 && decide (2 ^ p.w - c.opb < c.opa) then 6#4
  else 0#4

/-- The commands whose `OPA` is not ignored (R67). -/
def usesOpa : Instr → Bool
  | .band _ _ _ | .bxor _ _ _ => false
  | .ispow2 _ | .p2align _ _ | .p2alignd _ _ | .log2 _ | .ruq _ _ | .tany _ _ | .tall _ _ | .bfidx _ | .btst _ _
  | .bset _ _ | .bclr _ _ | .scanf _ _ | .rdw _ _ | .wrw _ _ _ => true

/-- The commands whose `OPB` is not ignored (R67). -/
def usesOpb : Instr → Bool
  | .p2align _ _ | .p2alignd _ _ | .ruq _ _ | .tany _ _ | .tall _ _ | .wrw _ _ _ => true
  | .ispow2 _ | .log2 _ | .bfidx _ | .btst _ _ | .bset _ _ | .bclr _ _ | .band _ _ _ | .bxor _ _ _ | .scanf _ _
  | .rdw _ _ => false

/-- The commands that drive `RES0` (R68). -/
def drivesRes0 : Instr → Bool
  | .p2align _ _ | .p2alignd _ _ | .log2 _ | .ruq _ _ | .bfidx _ | .scanf _ _ | .rdw _ _ => true
  | .ispow2 _ | .tany _ _ | .tall _ _ | .btst _ _ | .bset _ _ | .bclr _ _ | .band _ _ _ | .bxor _ _ _
  | .wrw _ _ _ => false

/-- The one command that drives `RES1` (R68). -/
def drivesRes1 : Instr → Bool
  | .bfidx _ => true
  | .ispow2 _ | .p2align _ _ | .p2alignd _ _ | .log2 _ | .ruq _ _ | .tany _ _ | .tall _ _ | .btst _ _ | .bset _ _
  | .bclr _ _ | .band _ _ _ | .bxor _ _ _ | .scanf _ _ | .rdw _ _ | .wrw _ _ _ => false

/-- The commands that drive `FLAG` (R68). -/
def drivesFlag : Instr → Bool
  | .ispow2 _ | .tany _ _ | .tall _ _ | .btst _ _ | .scanf _ _ => true
  | .p2align _ _ | .p2alignd _ _ | .log2 _ | .ruq _ _ | .bfidx _ | .bset _ _ | .bclr _ _ | .band _ _ _
  | .bxor _ _ _ | .rdw _ _ | .wrw _ _ _ => false

/-- The words a command that does not fault writes (the last column of R43). -/
def writesWord (p : Config) (i : Instr) (b k : Nat) : Prop :=
  match i with
  | .bset rd j => b = rd.toNat ∧ k = j / p.w
  | .bclr rd j => b = rd.toNat ∧ k = j / p.w
  | .band rd _ _ => b = rd.toNat ∧ k < p.n
  | .bxor rd _ _ => b = rd.toNat ∧ k < p.n
  | .wrw rd j _ => b = rd.toNat ∧ k = j
  | .ispow2 _ | .p2align _ _ | .p2alignd _ _ | .log2 _ | .ruq _ _ | .tany _ _ | .tall _ _ | .bfidx _ | .btst _ _
  | .scanf _ _ | .rdw _ _ => False

/-- The words a command that does not fault reads (the middle column of R43). SCANF reads from the cursor's word up to the
word in which the bit is found: word `k` is read when no eligible bit lies below it. -/
def readsWord (s : State) (i : Instr) (b k : Nat) : Prop :=
  match i with
  | .btst ra j => b = ra.toNat ∧ k = j / s.cfg.w
  | .bset rd j => b = rd.toNat ∧ k = j / s.cfg.w
  | .bclr rd j => b = rd.toNat ∧ k = j / s.cfg.w
  | .band _ ra rb => (b = ra.toNat ∨ b = rb.toNat) ∧ k < s.cfg.n
  | .bxor _ ra rb => (b = ra.toNat ∨ b = rb.toNat) ∧ k < s.cfg.n
  | .scanf ra c => b = ra.toNat ∧ c / s.cfg.w ≤ k ∧ k < s.cfg.n ∧
      ∀ j, c ≤ j → j < k * s.cfg.w → logicalBit ra.toNat j s = false
  | .rdw ra j => b = ra.toNat ∧ k = j
  | .ispow2 _ | .p2align _ _ | .p2alignd _ _ | .log2 _ | .ruq _ _ | .tany _ _ | .tall _ _ | .bfidx _
  | .wrw _ _ _ => False

/-- `e[k]` of R167: the eligible part of word `k` of bank `b` for the cursor `c`. -/
def chainWord (s : State) (b c k : Nat) : Nat :=
  if k < c / s.cfg.w then 0
  else if k = c / s.cfg.w then
    (memRead b k s).getD 0 &&& ((2 ^ s.cfg.w - 1) * 2 ^ (c % s.cfg.w) % 2 ^ s.cfg.w)
  else (memRead b k s).getD 0

/-- `carry[k]` of R167: nothing found in the words below `k`. -/
def chainCarry (s : State) (b c : Nat) : Nat → Bool
  | 0 => true
  | k + 1 => chainCarry s b c k && chainWord s b c k == 0

/-- `RES0` of R167: the word with `hit[k] = carry[k] and nz[k]` gives `k·W + ffs(e[k]) - 1`; 0 if there is none. -/
def chainRes0 (s : State) (b c : Nat) : Nat :=
  match (List.range s.cfg.n).find? fun k => chainCarry s b c k && chainWord s b c k != 0 with
  | some k => k * s.cfg.w + ffs s.cfg.w (chainWord s b c k) - 1
  | none => 0

/-- `ffs` built from the `sw`-bit primitive by lanes (R168): the lowest lane that is not zero gives
`l·SCANW + ffs_SCANW(lane l)`. -/
def ffsByLanes (sw w : Nat) (x : Nat) : Nat :=
  match (List.range (w / sw)).find? fun l => x / 2 ^ (l * sw) % 2 ^ sw != 0 with
  | some l => l * sw + ffs sw (x / 2 ^ (l * sw) % 2 ^ sw)
  | none => 0

/-- The set bits of bank `b`, in ascending order. -/
def setBits (s : State) (b : Nat) : List Nat := (List.range s.cfg.cap).filter fun j => logicalBit b j s

/-- These instructions one after another; none where one of them does not end unfaulted. -/
def runAll : List Instr → State → Option State
  | [], s => some s
  | i :: is, s =>
    match exec i s with
    | .next t => if t.fcause = 0#4 then runAll is t else none
    | .fault _ => none
    | .refused _ => none

/-- The host loop of R166 over bank `b` with other instructions run before each SCANF, one list of them per SCANF: the
indices reported, and whether the loop ended because `FLAG = 0` with no fault; none where one of the other instructions
faults. -/
def enumerateAmid (b : BankSel) : List (List Instr) → (cursor : Nat) → State → Option (List Nat × Bool)
  | [], _, _ => some ([], false)
  | is :: others, cursor, s =>
    (runAll is s).bind fun t =>
      match exec (.scanf b cursor) t with
      | .next u =>
        match u.response with
        | some r =>
          if r.fault ≠ 0#4 then some ([], false)
          else if r.flag then
            (enumerateAmid b others (r.res0 + 1) u).map fun rest => (r.res0 :: rest.1, rest.2)
          else some ([], true)
        | none => some ([], false)
      | .fault _ => some ([], false)
      | .refused _ => some ([], false)

/-- `N` WRW commands, one per word index, that write these words to a bank (R182, R231). -/
def writeAll (rd : BankSel) : (k : Nat) → List Nat → List HostAction
  | _, [] => []
  | k, x :: xs => .command (encode (.wrw rd k x)) :: writeAll rd (k + 1) xs

end Sys2Proof.Claims

open Sys2Proof Sys2Proof.Machine Sys2Proof.Claims

/-! ### Encoding -/

/-- R61, R62, R64: command words of 95_test_vectors.md decode to the commands they are written for. -/
def Obligations.CommandWordsDecodeAsTheSpecWritesThem : Prop :=
  decode ⟨0x00000001#32, 4, 0⟩ = .ok (.ispow2 4) ∧ decode ⟨0x00000002#32, 13, 8⟩ = .ok (.p2align 13 8) ∧
    decode ⟨0x00000006#32, 6, 1⟩ = .ok (.tany 6 1) ∧ decode ⟨0x00000008#32, 40, 0⟩ = .ok (.bfidx 40) ∧
    decode ⟨0x00003009#32, 0, 0⟩ = .ok (.btst 3 0) ∧ decode ⟨0x0000010A#32, 33, 0⟩ = .ok (.bset 1 33) ∧
    decode ⟨0x0001020C#32, 0, 0⟩ = .ok (.band 2 0 1) ∧ decode ⟨0x0002110D#32, 0, 0⟩ = .ok (.bxor 1 1 2) ∧
    decode ⟨0x0000100E#32, 9, 0⟩ = .ok (.scanf 1 9) ∧ decode ⟨0x0000200F#32, 1, 0⟩ = .ok (.rdw 2 1) ∧
    decode ⟨0x00000310#32, 1, 7⟩ = .ok (.wrw 3 1 7) ∧ decode ⟨0x00000101#32, 4, 0⟩ = .error .unusedFieldSet ∧
    decode ⟨0x00000000#32, 0, 0⟩ = .error .reservedOpcode ∧ decode ⟨0x00000011#32, 0, 0⟩ = .error .reservedOpcode

/-- R61, R62, R64, R67: decoding the command presented for an instruction gives that instruction, for every instruction,
every selector and every operand. -/
def Obligations.DecodeInvertsEncode : Prop := ∀ i : Instr, decode (encode i) = .ok i

/-- R61, R63, R67: a command that decodes is the one presented for its instruction, but for the ports it ignores: no two
command words mean one command. -/
def Obligations.EncodeInvertsDecode : Prop :=
  ∀ (c : Command) (i : Instr), decode c = .ok i →
    encodeCmd i = c.cmd ∧ encodeOpa i = (if usesOpa i then c.opa else 0) ∧
      encodeOpb i = if usesOpb i then c.opb else 0

/-- R62: the decoder accepts exactly the words that select a row of the opcode table, no word selects two rows, and the
row selected is that of the instruction's opcode. -/
def Obligations.DecodeAcceptsExactlyTheTableRows : Prop :=
  ∀ c : Command,
    ((∃ i, decode c = .ok i) ↔ ∃ r ∈ opcodeTable, c.cmd &&& r.mask = r.pattern) ∧
      (∀ r ∈ opcodeTable, ∀ r' ∈ opcodeTable, c.cmd &&& r.mask = r.pattern → c.cmd &&& r'.mask = r'.pattern → r = r') ∧
      ∀ i, ∀ r ∈ opcodeTable, decode c = .ok i → c.cmd &&& r.mask = r.pattern → r.pattern = (opcodeOf i).zeroExtend 32

/-- R63, R65: an unfaulted unit raises `ILLEGAL_CMD` for exactly the words with a reserved opcode or a 1 in the ZERO field
or in a selector field the command does not use; every other word decodes. -/
def Obligations.IllegalCommandWordsFault : Prop :=
  ∀ (s : State) (c : Command), s.fcause = 0#4 → c.wellFormed s.cfg = true →
    (illegalWord c.cmd.toNat = true → issue c s = .next (faultEntered 1#4 c.cmd s)) ∧
      (illegalWord c.cmd.toNat = false → ∃ i, decode c = .ok i)

/-! ### The parameters -/

/-- R6 (a), (b): what the constraints on the parameters are, and that they make every bit index, `CAP` and every scan result
+ 1 fit an operand port; U15: a configuration outside them is refused. -/
def Obligations.ConfigurationConstraints : Prop :=
  (∀ c : Config,
    (configValid c = true ↔
      (∃ e, 3 ≤ e ∧ c.scanw = 2 ^ e) ∧ (∃ k, c.w = c.scanw * 2 ^ k) ∧ 1 ≤ c.n ∧ 1 ≤ c.nb ∧ c.nb ≤ 16 ∧
        c.n * c.w ≤ 2 ^ c.w - 1) ∧
    (configValid c = true → 8 ≤ c.w ∧ (∃ e, c.w = 2 ^ e) ∧ ∀ j, j < c.cap → c.fits j ∧ c.fits (j + 1))) ∧
    ∀ s : State, configValid s.cfg = false → step s = .refused .badConfiguration

/-! ### The step -/

/-- R72: the step takes the next command from the host's list (the list is the model's, log entry 5) and is `Step` of that
command on what remains; when the command decodes, that is the instruction's meaning, and its operands fit the ports. -/
def Obligations.StepRunsTheDecodedCommand : Prop :=
  ∀ (s : State) (c : Command) (rest : List HostAction), configValid s.cfg = true →
    s.pending = .command c :: rest → c.wellFormed s.cfg = true →
    step s = issue c { s with pending := rest } ∧
      ∀ i, decode c = .ok i → step s = exec i { s with pending := rest } ∧ i.wellFormed s.cfg = true

/-- R22 (d), R209: between two commands the unit changes nothing (that a step with nothing presented is such an idle
moment is the model's, log entry 5). -/
def Obligations.IdleUnitChangesNothing : Prop :=
  ∀ s : State, configValid s.cfg = true → s.pending = [] → step s = .next s

/-- R230, R30: RESET, from any state, clears `FCAUSE` and `FCMD` and leaves every word of `BF` some `W`-bit value; the
parameters stay. The host's list stays and there is no response: the model's, log entries 5 and 6. -/
def Obligations.ResetClearsTheFaultRegisters : Prop :=
  ∀ (s : State) (rest : List HostAction), configValid s.cfg = true → s.pending = .reset :: rest →
    ∃ t, step s = .next t ∧ t.fcause = 0#4 ∧ t.fcmd = 0#32 ∧ Memory.wf s.cfg t.bf = true ∧ t.cfg = s.cfg ∧
      t.pending = rest ∧ t.response = none

/-- R30: after reset `FCAUSE = 0`, `FCMD = 0`, and every word of every bank holds a `W`-bit value. The configuration (R7),
the empty list of the host and the absent response are the model's, log entries 1, 5, 6. -/
def Obligations.StateAfterReset : Prop :=
  State.reset.fcause = 0#4 ∧ State.reset.fcmd = 0#32 ∧ State.reset.cfg = ⟨32, 2, 4, 32⟩ ∧
    State.reset.pending = [] ∧ State.reset.response = none ∧
    ∀ b k, (b < 4 ∧ k < 2 → ∃ x, memRead b k State.reset = some x ∧ x < 2 ^ 32) ∧
      (¬(b < 4 ∧ k < 2) → memRead b k State.reset = none)

/-- The machine's invariant holds after reset. -/
def Obligations.ResetMeetsTheInvariant : Prop := State.reset.Inv

/-- R6, R21, R26, R27, R28, R105: every step keeps the machine's invariant: the store keeps its shape, no word and no
result outgrows `W` bits, `FCAUSE` stays a code of R200, `FCMD = 0` while `FCAUSE = 0`, `FAULT` and `FCMD` show the
registers. -/
def Obligations.StepKeepsTheInvariant : Prop := ∀ s t : State, s.Inv → step s = .next t → t.Inv

/-- R72, R237: in every state that meets the invariant the step answers a next state: no fault of the model, no
refusal. -/
def Obligations.StepIsTotal : Prop := ∀ s : State, s.Inv → ∃ t, step s = .next t

/-- R5: no command and no reset changes the parameters. The second clause is the model's choice, log entry 5: every step, RESET
included, takes the head off the host's list and leaves the rest of it. -/
def Obligations.StepKeepsTheConfiguration : Prop :=
  ∀ s t : State, step s = .next t → t.cfg = s.cfg ∧ t.pending = s.pending.tail

/-- R237: a run over a finite list of commands and resets always ends with the list exhausted and the invariant kept; once
faulted, a list with no reset has no effect on the machine; and such a run ended well exactly when every response had
`FAULT = 0`. -/
def Obligations.RunsTerminateAndFaultsStick : Prop :=
  ∀ s : State, s.Inv → ∃ t, core.run s.pending.length s = .next t ∧ t.pending = [] ∧ t.Inv ∧
    ((∀ a ∈ s.pending, a ≠ .reset) →
      (s.fcause ≠ 0#4 → t.bf = s.bf ∧ t.fcause = s.fcause ∧ t.fcmd = s.fcmd) ∧
      (t.EndedWell ↔ s.fcause = 0#4 ∧ ∀ k u, 1 ≤ k → k ≤ s.pending.length → core.run k s = .next u →
        ∀ r ∈ u.response, r.fault = 0#4))

/-! ### Faults -/

/-- R201, R202: the cause a command raises on an unfaulted unit is the first of the table's conditions that holds, in the
order ILLEGAL_CMD, BANK_RANGE, the operand check, ALIGN_OVERFLOW; a fault records the cause code and the command word and
nothing else. -/
def Obligations.FaultTableAndPriority : Prop :=
  ∀ (s : State) (c : Command), s.Ready → c.wellFormed s.cfg = true →
    ∃ t, issue c s = .next t ∧ t.fcause = faultCodeOf s.cfg c ∧
      (faultCodeOf s.cfg c ≠ 0#4 → t = faultEntered (faultCodeOf s.cfg c) c.cmd s)

/-- R66: a command that uses a selector `>= NB` raises `BANK_RANGE`, whatever its operands; with `NB = 16` this cannot
happen. -/
def Obligations.UsedSelectorOutOfRangeFaults : Prop :=
  ∀ (s : State) (i : Instr), s.fcause = 0#4 →
    ((∃ sel ∈ selectorsOf i, s.cfg.nb ≤ sel.toNat) → exec i s = .next (faultEntered 2#4 (encodeCmd i) s)) ∧
      (s.cfg.nb = 16 → ∀ t, exec i s = .next t → t.fcause ≠ 2#4)

/-- R203: a command that faults, legal or not, has no effect but `FCAUSE`, `FCMD` (its command word) and the response, which
is 0 but for `FAULT`; the code is one of 1 to 6. -/
def Obligations.FaultEntryIsPrecise : Prop :=
  ∀ (s t : State) (c : Command), s.fcause = 0#4 → issue c s = .next t → t.fcause ≠ 0#4 →
    t = faultEntered t.fcause c.cmd s ∧ 1#4 ≤ t.fcause ∧ t.fcause ≤ 6#4

/-- R204: while `FCAUSE != 0` every command, legal or not, is ignored: nothing changes, and the response is 0 with
`FAULT = FCAUSE`. -/
def Obligations.FaultedUnitIgnoresEveryCommand : Prop :=
  ∀ s : State, s.fcause ≠ 0#4 →
    (∀ i : Instr, exec i s = .next (answered 0 0 false s)) ∧
      ∀ c : Command, c.wellFormed s.cfg = true → issue c s = .next (answered 0 0 false s)

/-- R26, R205: no step but RESET leaves the faulted state or changes what it recorded or the store. -/
def Obligations.OnlyResetLeavesTheFaultedState : Prop :=
  ∀ s t : State, s.fcause ≠ 0#4 → step s = .next t →
    (t.fcause = s.fcause ∧ t.fcmd = s.fcmd ∧ t.bf = s.bf) ∨ ∃ rest, s.pending = .reset :: rest

/-- R27, R201: the fault registers always record a cause that its command word can raise: every step keeps it. -/
def Obligations.StepKeepsTheFaultRecordTrue : Prop :=
  ∀ s t : State, causeRecordFits s.cfg s.fcause s.fcmd → step s = .next t →
    causeRecordFits t.cfg t.fcause t.fcmd

/-- R206: what is not a fault: LOG2 of 0; SCANF that finds nothing, and with the cursor `CAP`; TANY and TALL of every pair of
words; BSET of a set bit, BCLR of a clear bit; every alias pattern of BAND and BXOR; reading any word, written or not; any
value on an ignored port. -/
def Obligations.WhatIsNotAFault : Prop :=
  ∀ (s : State) (b b' b'' : BankSel), s.Ready → b.toNat < s.cfg.nb → b'.toNat < s.cfg.nb → b''.toNat < s.cfg.nb →
    exec (.log2 0) s = .next (answered 0 0 false s) ∧
      (∀ c, c ≤ s.cfg.cap → (∀ j, c ≤ j → j < s.cfg.cap → logicalBit b.toNat j s = false) →
        exec (.scanf b c) s = .next (answered 0 0 false s)) ∧
      exec (.scanf b s.cfg.cap) s = .next (answered 0 0 false s) ∧
      (∀ x y, ∃ f g, exec (.tany x y) s = .next (answered 0 0 f s) ∧ exec (.tall x y) s = .next (answered 0 0 g s)) ∧
      (∀ i, i < s.cfg.cap → logicalBit b.toNat i s = true → exec (.bset b i) s = .next (answered 0 0 false s)) ∧
      (∀ i, i < s.cfg.cap → logicalBit b.toNat i s = false → exec (.bclr b i) s = .next (answered 0 0 false s)) ∧
      (∃ t, exec (.band b b' b'') s = .next t ∧ t.fcause = 0#4) ∧
      (∃ t, exec (.bxor b b' b'') s = .next t ∧ t.fcause = 0#4) ∧
      (∀ k, k < s.cfg.n → ∃ x, memRead b.toNat k s = some x ∧ exec (.rdw b k) s = .next (answered x 0 false s)) ∧
      ∀ (i : Instr) (c : Command), decode c = .ok i → c.wellFormed s.cfg = true →
        issue c s = issue ⟨c.cmd, if usesOpa i then c.opa else 0, if usesOpb i then c.opb else 0⟩ s

/-! ### The interface and the footprint of a command -/

/-- R28: `FAULT` and `FCMD` are always the registers' values after the step, for every command. -/
def Obligations.OutputsShowTheFaultRegisters : Prop :=
  ∀ (s t : State) (c : Command) (rest : List HostAction), s.pending = .command c :: rest → step s = .next t →
    ∃ r, t.response = some r ∧ r.fault = t.fcause ∧ r.fcmd = t.fcmd

/-- R68: a port the command does not drive is 0, and all three are 0 when the unit is faulted after the command. -/
def Obligations.UndrivenPortsAreZero : Prop :=
  ∀ (s t : State) (i : Instr) (r : Response), exec i s = .next t → t.response = some r →
    (drivesRes0 i = false → r.res0 = 0) ∧ (drivesRes1 i = false → r.res1 = 0) ∧
      (drivesFlag i = false → r.flag = false) ∧ (t.fcause ≠ 0#4 → r.res0 = 0 ∧ r.res1 = 0 ∧ r.flag = false)

/-- R67: the value on a port the command ignores has no effect on the step. -/
def Obligations.IgnoredOperandsHaveNoEffect : Prop :=
  ∀ (s : State) (c c' : Command) (i : Instr), c.wellFormed s.cfg = true → c'.wellFormed s.cfg = true →
    c'.cmd = c.cmd → decode c = .ok i → (usesOpa i = true → c'.opa = c.opa) → (usesOpb i = true → c'.opb = c.opb) →
    issue c' s = issue c s

/-- R23, R25: no command reads the response of an earlier one; nor does it read or change the model's own fields, the host's
list and the count of resets: with other values there it does the same and leaves them as they are. -/
def Obligations.NoCommandReadsAnEarlierResponse : Prop :=
  ∀ (s : State) (i : Instr) (r : Option Response) (p : List HostAction) (n : Nat),
    exec i { s with response := r, pending := p, resets := n } =
      mapNext (fun t => { t with pending := p, resets := n }) (exec i s)

/-- R22 (c), R43, R53: a command writes only the words its row of the footprint table names, and none when it faults; every
other word of every bank keeps its value, and the store keeps its shape. -/
def Obligations.CommandsWriteOnlyTheirFootprint : Prop :=
  ∀ (s t : State) (i : Instr), exec i s = .next t →
    (∀ b k, memRead b k t ≠ memRead b k s → writesWord s.cfg i b k ∧ t.fcause = 0#4) ∧
      ∀ b k, (memRead b k t).isSome = (memRead b k s).isSome

/-- R43: what a command answers and writes depends on no word but those its row of the table says it reads: two stores that
agree on those words give the same response, the same fault registers and the same written words, and every word outside
the row's writes keeps its value. -/
def Obligations.FootprintOfEveryCommand : Prop :=
  ∀ (s t : State) (m : Memory) (i : Instr), s.Inv → Memory.wf s.cfg m = true →
    (∀ b k, readsWord s i b k → memRead b k { s with bf := m } = memRead b k s) → exec i s = .next t →
    ∃ t', exec i { s with bf := m } = .next t' ∧ t'.response = t.response ∧ t'.fcause = t.fcause ∧ t'.fcmd = t.fcmd ∧
      ∀ b k, (writesWord s.cfg i b k → t.fcause = 0#4 → memRead b k t' = memRead b k t) ∧
        (¬writesWord s.cfg i b k → memRead b k t = memRead b k s ∧ memRead b k t' = memRead b k { s with bf := m })

/-- R234 (b): two commands on disjoint banks that do not fault can be exchanged: each gives the same response in either
order, and the store ends the same. -/
def Obligations.CommandsOnDisjointBanksCommute : Prop :=
  ∀ (s t u : State) (i j : Instr), s.Ready → (∀ a ∈ selectorsOf i, ∀ b ∈ selectorsOf j, a ≠ b) →
    exec i s = .next t → exec j t = .next u → u.fcause = 0#4 →
    ∃ t' u', exec j s = .next t' ∧ exec i t' = .next u' ∧ t'.response = u.response ∧ u'.response = t.response ∧
      u'.bf = u.bf ∧ u'.fcause = 0#4

/-! ### Alignment and power-of-two arithmetic -/

/-- R100: ISPOW2 answers `FLAG = 1` exactly when one bit of `v` is 1, and changes nothing. -/
def Obligations.Ispow2Result : Prop :=
  (∀ (s : State) (v : Nat), s.fcause = 0#4 →
    encodeCmd (.ispow2 v) = 0x00000001#32 ∧
    ∃ f, exec (.ispow2 v) s = .next (answered 0 0 f s) ∧
      (f = true ↔ v ≠ 0 ∧ ∃! p, p < s.cfg.w ∧ v.testBit p = true) ∧
      (s.cfg.fits v → (f = true ↔ ∃ e, e < s.cfg.w ∧ v = 2 ^ e) ∧ (f = true ↔ v ≠ 0 ∧ v &&& (v - 1) = 0))) ∧
    unusedBitsFault 0x01#8 0xFFFFFF00#32

/-- R101: P2ALIGN answers the smallest multiple of `alignment` at or above `value`; it raises `ALIGN_NOT_POW2` when
`alignment` is no power of two and `ALIGN_OVERFLOW` exactly when `value > 2^W - alignment`. The last clause is the rule's
equivalent form, on `W + 1` bits. -/
def Obligations.P2alignResult : Prop :=
  (∀ (s : State) (value alignment : Nat), s.fcause = 0#4 → s.cfg.fits value → s.cfg.fits alignment →
    encodeCmd (.p2align value alignment) = 0x00000002#32 ∧
    ((¬∃ e, alignment = 2 ^ e) →
      exec (.p2align value alignment) s = .next (faultEntered 4#4 0x00000002#32 s)) ∧
    ((∃ e, alignment = 2 ^ e) → 2 ^ s.cfg.w - alignment < value →
      exec (.p2align value alignment) s = .next (faultEntered 6#4 0x00000002#32 s)) ∧
    ((∃ e, alignment = 2 ^ e) → value ≤ 2 ^ s.cfg.w - alignment →
      ∃ r, exec (.p2align value alignment) s = .next (answered r 0 false s) ∧ s.cfg.fits r ∧ value ≤ r ∧
        r % alignment = 0 ∧ (∀ r', value ≤ r' → r' % alignment = 0 → r ≤ r') ∧
        r = ((value + alignment - 1) / alignment) * alignment ∧
        r = (value + (alignment - 1)) &&& (2 ^ (s.cfg.w + 1) - 1 - (alignment - 1)))) ∧
    unusedBitsFault 0x02#8 0xFFFFFF00#32

/-- R102: P2ALIGND answers the largest multiple of `alignment` at or below `value`; it raises `ALIGN_NOT_POW2` when
`alignment` is no power of two. -/
def Obligations.P2aligndResult : Prop :=
  (∀ (s : State) (value alignment : Nat), s.fcause = 0#4 → s.cfg.fits value → s.cfg.fits alignment →
    encodeCmd (.p2alignd value alignment) = 0x00000003#32 ∧
    ((¬∃ e, alignment = 2 ^ e) →
      exec (.p2alignd value alignment) s = .next (faultEntered 4#4 0x00000003#32 s)) ∧
    ((∃ e, alignment = 2 ^ e) →
      ∃ r, exec (.p2alignd value alignment) s = .next (answered r 0 false s) ∧ r ≤ value ∧ r % alignment = 0 ∧
        (∀ r', r' ≤ value → r' % alignment = 0 → r' ≤ r) ∧ r = value - value % alignment ∧
        r = value &&& (2 ^ s.cfg.w - 1 - (alignment - 1)))) ∧
    unusedBitsFault 0x03#8 0xFFFFFF00#32

/-- R103: LOG2 answers the floor of log2, and 0 for 0; the result is at most `W - 1`. -/
def Obligations.Log2Result : Prop :=
  (∀ (s : State) (u : Nat), s.fcause = 0#4 → configValid s.cfg = true → s.cfg.fits u →
    encodeCmd (.log2 u) = 0x00000004#32 ∧
    ∃ n, exec (.log2 u) s = .next (answered n 0 false s) ∧ n ≤ s.cfg.w - 1 ∧ (u = 0 → n = 0) ∧
      (0 < u → 2 ^ n ≤ u ∧ u < 2 ^ (n + 1))) ∧
    unusedBitsFault 0x04#8 0xFFFFFF00#32

/-- R104: RUQ answers the exact ceiling of `dividend / divisor`, which is at most `dividend`; it raises `DIVIDE_BY_ZERO` when
`divisor = 0`. -/
def Obligations.RuqResult : Prop :=
  (∀ (s : State) (dividend divisor : Nat), s.fcause = 0#4 →
    encodeCmd (.ruq dividend divisor) = 0x00000005#32 ∧
    (divisor = 0 → exec (.ruq dividend divisor) s = .next (faultEntered 5#4 0x00000005#32 s)) ∧
    (0 < divisor → ∃ q, exec (.ruq dividend divisor) s = .next (answered q 0 false s) ∧ dividend ≤ q * divisor ∧
      (∀ q', dividend ≤ q' * divisor → q ≤ q') ∧ q ≤ dividend ∧
      q = dividend / divisor + (if dividend % divisor ≠ 0 then 1 else 0))) ∧
    unusedBitsFault 0x05#8 0xFFFFFF00#32

/-- R106: the helpers at `W`: `i div W = i >> log2floor(W)`, `i mod W = i & (W - 1)`; P2ALIGND gives `(i div W)·W`; RUQ gives
the least number of words that hold `B` bits; P2ALIGN gives `W` times it whenever it does not overflow. -/
def Obligations.HelperIdentitiesAtTheWordWidth : Prop :=
  ∀ (s : State) (i : Nat), s.Ready → s.cfg.fits i →
    (∃ e, exec (.log2 s.cfg.w) s = .next (answered e 0 false s) ∧ i / s.cfg.w = i >>> e) ∧
      i % s.cfg.w = i &&& (s.cfg.w - 1) ∧
      exec (.p2alignd i s.cfg.w) s = .next (answered (i / s.cfg.w * s.cfg.w) 0 false s) ∧
      ∃ q, exec (.ruq i s.cfg.w) s = .next (answered q 0 false s) ∧ i ≤ q * s.cfg.w ∧
        (∀ q', i ≤ q' * s.cfg.w → q ≤ q') ∧
        (i ≤ 2 ^ s.cfg.w - s.cfg.w →
          exec (.p2align i s.cfg.w) s = .next (answered (s.cfg.w * q) 0 false s))

/-! ### Single-word flag testing -/

/-- R120: TANY answers `(src & test) != 0`: some bit is 1 in both words. -/
def Obligations.TanyResult : Prop :=
  (∀ (s : State) (src test : Nat), s.fcause = 0#4 → s.cfg.fits src → s.cfg.fits test →
    encodeCmd (.tany src test) = 0x00000006#32 ∧
    ∃ f, exec (.tany src test) s = .next (answered 0 0 f s) ∧ (f = true ↔ src &&& test ≠ 0) ∧
      (f = true ↔ ∃ p, p < s.cfg.w ∧ src.testBit p = true ∧ test.testBit p = true)) ∧
    unusedBitsFault 0x06#8 0xFFFFFF00#32

/-- R121: TALL answers `(src & test) = test`: every bit of `test` is 1 in `src`. -/
def Obligations.TallResult : Prop :=
  (∀ (s : State) (src test : Nat), s.fcause = 0#4 → s.cfg.fits src → s.cfg.fits test →
    encodeCmd (.tall src test) = 0x00000007#32 ∧
    ∃ f, exec (.tall src test) s = .next (answered 0 0 f s) ∧ (f = true ↔ src &&& test = test) ∧
      (f = true ↔ ∀ p, p < s.cfg.w → test.testBit p = true → src.testBit p = true)) ∧
    unusedBitsFault 0x07#8 0xFFFFFF00#32

/-- R122: BTST answers what TANY and TALL answer on the word that holds the bit and its in-word mask; neither TANY nor TALL
reads or writes `BF`, `FCAUSE` or `FCMD`. -/
def Obligations.BtstMirrorsTheFlagTests : Prop :=
  ∀ (s : State) (b : BankSel) (i x : Nat), s.Ready → b.toNat < s.cfg.nb → i < s.cfg.cap →
    memRead b.toNat (i / s.cfg.w) s = some x →
    exec (.btst b i) s = exec (.tany x (2 ^ (i % s.cfg.w))) s ∧
      exec (.btst b i) s = exec (.tall x (2 ^ (i % s.cfg.w))) s

/-! ### Wide-bitfield indexing -/

/-- R131: BFIDX answers the word index and the in-word mask of a bit index below `CAP`; from `CAP` on it raises
`INDEX_RANGE`. -/
def Obligations.BfidxResult : Prop :=
  (∀ (s : State) (i : Nat), s.fcause = 0#4 →
    encodeCmd (.bfidx i) = 0x00000008#32 ∧
    (i < s.cfg.n * s.cfg.w →
      exec (.bfidx i) s = .next (answered (i / s.cfg.w) (2 ^ (i % s.cfg.w)) false s) ∧ i / s.cfg.w ≤ s.cfg.n - 1) ∧
    (s.cfg.n * s.cfg.w ≤ i → exec (.bfidx i) s = .next (faultEntered 3#4 0x00000008#32 s))) ∧
    unusedBitsFault 0x08#8 0xFFFFFF00#32

/-- R132: `idx` gives a mask with one 1 bit, is injective, reaches word `N` exactly from `CAP` on, tells the bits of a word
apart, and picks the logical bit. -/
def Obligations.IndexMapProperties : Prop :=
  ∀ (s : State) (b i j : Nat), configValid s.cfg = true →
    (ispow2 s.cfg.w (idx s.cfg.w i).2 = true ∧ log2floor s.cfg.w (idx s.cfg.w i).2 = i % s.cfg.w) ∧
      (idx s.cfg.w i = idx s.cfg.w j → i = j) ∧
      ((i < s.cfg.cap → (idx s.cfg.w i).1 < s.cfg.n) ∧
        (i = s.cfg.cap → (idx s.cfg.w i).1 = s.cfg.n ∧ i % s.cfg.w = 0) ∧
        (s.cfg.cap < i → s.cfg.n ≤ (idx s.cfg.w i).1)) ∧
      ((idx s.cfg.w i).1 = (idx s.cfg.w j).1 → i ≠ j → (idx s.cfg.w i).2 ≠ (idx s.cfg.w j).2) ∧
      ∀ x, memRead b (idx s.cfg.w i).1 s = some x →
        (logicalBit b i s = true ↔ x &&& (idx s.cfg.w i).2 ≠ 0)

/-! ### Wide-bitfield test, set, clear -/

/-- R140: BTST answers the logical bit `bit(RA, i)` and writes nothing; the first fault in the order ILLEGAL_CMD, BANK_RANGE,
INDEX_RANGE is raised otherwise. -/
def Obligations.BtstResult : Prop :=
  (∀ (s : State) (ra : BankSel) (i : Nat), s.fcause = 0#4 → Memory.wf s.cfg s.bf = true →
    (encodeCmd (.btst ra i)).toNat = 0x00000009 + 4096 * ra.toNat ∧
    (ra.toNat < s.cfg.nb → i < s.cfg.cap →
      exec (.btst ra i) s = .next (answered 0 0 (logicalBit ra.toNat i s) s)) ∧
    (s.cfg.nb ≤ ra.toNat → exec (.btst ra i) s = .next (faultEntered 2#4 (encodeCmd (.btst ra i)) s)) ∧
    (ra.toNat < s.cfg.nb → s.cfg.cap ≤ i →
      exec (.btst ra i) s = .next (faultEntered 3#4 (encodeCmd (.btst ra i)) s))) ∧
    unusedBitsFault 0x09#8 0xFFFF0F00#32

/-- R141: BSET ORs the mask of bit `i` into the one word `BF[RD][i div W]`; every other word keeps its value and nothing is
answered. -/
def Obligations.BsetResult : Prop :=
  (∀ (s : State) (rd : BankSel) (i : Nat), s.fcause = 0#4 → Memory.wf s.cfg s.bf = true →
    (encodeCmd (.bset rd i)).toNat = 0x0000000A + 256 * rd.toNat ∧
    (rd.toNat < s.cfg.nb → i < s.cfg.cap →
      ∃ t x, exec (.bset rd i) s = .next t ∧ t = answered 0 0 false { s with bf := t.bf } ∧
        memRead rd.toNat (i / s.cfg.w) s = some x ∧
        ∀ b k, memRead b k t =
          if b = rd.toNat ∧ k = i / s.cfg.w then some (x ||| 2 ^ (i % s.cfg.w)) else memRead b k s) ∧
    (s.cfg.nb ≤ rd.toNat → exec (.bset rd i) s = .next (faultEntered 2#4 (encodeCmd (.bset rd i)) s)) ∧
    (rd.toNat < s.cfg.nb → s.cfg.cap ≤ i →
      exec (.bset rd i) s = .next (faultEntered 3#4 (encodeCmd (.bset rd i)) s))) ∧
    unusedBitsFault 0x0A#8 0xFFFFF000#32

/-- R142: BCLR ANDs the inverted mask of bit `i` into the one word `BF[RD][i div W]`; every other word keeps its value and
nothing is answered. -/
def Obligations.BclrResult : Prop :=
  (∀ (s : State) (rd : BankSel) (i : Nat), s.fcause = 0#4 → Memory.wf s.cfg s.bf = true →
    (encodeCmd (.bclr rd i)).toNat = 0x0000000B + 256 * rd.toNat ∧
    (rd.toNat < s.cfg.nb → i < s.cfg.cap →
      ∃ t x, exec (.bclr rd i) s = .next t ∧ t = answered 0 0 false { s with bf := t.bf } ∧
        memRead rd.toNat (i / s.cfg.w) s = some x ∧
        ∀ b k, memRead b k t =
          if b = rd.toNat ∧ k = i / s.cfg.w then some (x &&& (2 ^ s.cfg.w - 1 - 2 ^ (i % s.cfg.w)))
          else memRead b k s) ∧
    (s.cfg.nb ≤ rd.toNat → exec (.bclr rd i) s = .next (faultEntered 2#4 (encodeCmd (.bclr rd i)) s)) ∧
    (rd.toNat < s.cfg.nb → s.cfg.cap ≤ i →
      exec (.bclr rd i) s = .next (faultEntered 3#4 (encodeCmd (.bclr rd i)) s))) ∧
    unusedBitsFault 0x0B#8 0xFFFFF000#32

/-- R143: after BSET the bit tests 1, after BSET then BCLR it tests 0; every other bit of every bank is the same before and
after any BSET or BCLR; BTST changes no state. -/
def Obligations.BitMutationLaws : Prop :=
  ∀ (s : State) (b : BankSel) (i : Nat), s.Ready → b.toNat < s.cfg.nb → i < s.cfg.cap →
    (∃ t u c, exec (.bset b i) s = .next t ∧ exec (.btst b i) t = .next (answered 0 0 true t) ∧
      exec (.bclr b i) t = .next u ∧ exec (.btst b i) u = .next (answered 0 0 false u) ∧
      exec (.bclr b i) s = .next c ∧
      ∀ b' j, b' < s.cfg.nb → j < s.cfg.cap → (b' ≠ b.toNat ∨ j ≠ i) →
        logicalBit b' j t = logicalBit b' j s ∧ logicalBit b' j c = logicalBit b' j s) ∧
      ∃ f, exec (.btst b i) s = .next (answered 0 0 f s)

/-! ### Wide-bitfield bulk combine -/

/-- R150: BAND writes `BF[RA][k] & BF[RB][k]`, of the words before the command, to every word of bank `RD`, whatever aliases;
every word of every other bank keeps its value and nothing is answered. -/
def Obligations.BandResult : Prop :=
  (∀ (s : State) (rd ra rb : BankSel), s.fcause = 0#4 → Memory.wf s.cfg s.bf = true →
    (encodeCmd (.band rd ra rb)).toNat = 0x0000000C + 256 * rd.toNat + 4096 * ra.toNat + 65536 * rb.toNat ∧
    (rd.toNat < s.cfg.nb → ra.toNat < s.cfg.nb → rb.toNat < s.cfg.nb →
      ∃ t, exec (.band rd ra rb) s = .next t ∧ t = answered 0 0 false { s with bf := t.bf } ∧
        (∀ k, k < s.cfg.n → ∃ x y, memRead ra.toNat k s = some x ∧ memRead rb.toNat k s = some y ∧
          memRead rd.toNat k t = some (x &&& y)) ∧
        ∀ b k, b ≠ rd.toNat ∨ s.cfg.n ≤ k → memRead b k t = memRead b k s) ∧
    (s.cfg.nb ≤ rd.toNat ∨ s.cfg.nb ≤ ra.toNat ∨ s.cfg.nb ≤ rb.toNat →
      exec (.band rd ra rb) s = .next (faultEntered 2#4 (encodeCmd (.band rd ra rb)) s))) ∧
    unusedBitsFault 0x0C#8 0xFFF00000#32

/-- R151: BXOR writes `BF[RA][k] ^ BF[RB][k]`, of the words before the command, to every word of bank `RD`, whatever aliases;
every word of every other bank keeps its value and nothing is answered. -/
def Obligations.BxorResult : Prop :=
  (∀ (s : State) (rd ra rb : BankSel), s.fcause = 0#4 → Memory.wf s.cfg s.bf = true →
    (encodeCmd (.bxor rd ra rb)).toNat = 0x0000000D + 256 * rd.toNat + 4096 * ra.toNat + 65536 * rb.toNat ∧
    (rd.toNat < s.cfg.nb → ra.toNat < s.cfg.nb → rb.toNat < s.cfg.nb →
      ∃ t, exec (.bxor rd ra rb) s = .next t ∧ t = answered 0 0 false { s with bf := t.bf } ∧
        (∀ k, k < s.cfg.n → ∃ x y, memRead ra.toNat k s = some x ∧ memRead rb.toNat k s = some y ∧
          memRead rd.toNat k t = some (x ^^^ y)) ∧
        ∀ b k, b ≠ rd.toNat ∨ s.cfg.n ≤ k → memRead b k t = memRead b k s) ∧
    (s.cfg.nb ≤ rd.toNat ∨ s.cfg.nb ≤ ra.toNat ∨ s.cfg.nb ≤ rb.toNat →
      exec (.bxor rd ra rb) s = .next (faultEntered 2#4 (encodeCmd (.bxor rd ra rb)) s))) ∧
    unusedBitsFault 0x0D#8 0xFFF00000#32

/-- R152 (d): after BAND or BXOR every logical bit of `RD` is the operation on the bits of `RA` and `RB` taken before the
command, for every alias pattern. -/
def Obligations.CombineActsOnLogicalBits : Prop :=
  ∀ (s t u : State) (rd ra rb : BankSel) (i : Nat), s.Ready → rd.toNat < s.cfg.nb → ra.toNat < s.cfg.nb →
    rb.toNat < s.cfg.nb → i < s.cfg.cap → exec (.band rd ra rb) s = .next t → exec (.bxor rd ra rb) s = .next u →
    logicalBit rd.toNat i t = (logicalBit ra.toNat i s && logicalBit rb.toNat i s) ∧
      logicalBit rd.toNat i u = Bool.xor (logicalBit ra.toNat i s) (logicalBit rb.toNat i s)

/-- R153: BXOR of a bank with itself clears the destination; BAND with a bank of all ones copies; both commute. -/
def Obligations.CombineLaws : Prop :=
  ∀ (s : State) (rd ra rb : BankSel), s.Ready → rd.toNat < s.cfg.nb → ra.toNat < s.cfg.nb → rb.toNat < s.cfg.nb →
    (∃ t, exec (.bxor rd ra ra) s = .next t ∧ ∀ k, k < s.cfg.n → memRead rd.toNat k t = some 0) ∧
      ((∀ k, k < s.cfg.n → memRead rb.toNat k s = some (2 ^ s.cfg.w - 1)) →
        ∃ t, exec (.band rd ra rb) s = .next t ∧ ∀ k, k < s.cfg.n → memRead rd.toNat k t = memRead ra.toNat k s) ∧
      exec (.band rd ra rb) s = exec (.band rd rb ra) s ∧ exec (.bxor rd ra rb) s = exec (.bxor rd rb ra) s

/-! ### Forward scan -/

/-- R160: `ffs` is 0 for 0 and otherwise 1 + the position of the least-significant 1 bit, between 1 and `W`. -/
def Obligations.FfsFindsTheLeastSetBit : Prop :=
  ∀ (w : Nat) (x : Nat), x < 2 ^ w →
    (x = 0 → ffs w x = 0) ∧
      (x ≠ 0 → 1 ≤ ffs w x ∧ ffs w x ≤ w ∧ x.testBit (ffs w x - 1) = true ∧
        ∀ p, p < ffs w x - 1 → x.testBit p = false)

/-- R161, R162: SCANF answers the least set bit at or after the cursor, or `FLAG = 0` with `RES0 = 0` when there is none; it
writes nothing; `c = CAP` is legal; it raises BANK_RANGE or, for a cursor above `CAP`, INDEX_RANGE. -/
def Obligations.ScanfResult : Prop :=
  (∀ (s : State) (ra : BankSel) (c : Nat), s.fcause = 0#4 → Memory.wf s.cfg s.bf = true →
    (encodeCmd (.scanf ra c)).toNat = 0x0000000E + 4096 * ra.toNat ∧
    (ra.toNat < s.cfg.nb → c ≤ s.cfg.cap →
      ((∀ j, c ≤ j → j < s.cfg.cap → logicalBit ra.toNat j s = false) →
        exec (.scanf ra c) s = .next (answered 0 0 false s)) ∧
      ∀ j, c ≤ j → j < s.cfg.cap → logicalBit ra.toNat j s = true →
        (∀ j', c ≤ j' → j' < j → logicalBit ra.toNat j' s = false) →
        exec (.scanf ra c) s = .next (answered j 0 true s)) ∧
    (s.cfg.nb ≤ ra.toNat → exec (.scanf ra c) s = .next (faultEntered 2#4 (encodeCmd (.scanf ra c)) s)) ∧
    (ra.toNat < s.cfg.nb → s.cfg.cap < c →
      exec (.scanf ra c) s = .next (faultEntered 3#4 (encodeCmd (.scanf ra c)) s))) ∧
    unusedBitsFault 0x0E#8 0xFFFF0F00#32

/-- R167: SCANF answers what the word-level chain with a carry gives, for every cursor up to `CAP`. -/
def Obligations.ScanfEqualsTheCarryChain : Prop :=
  ∀ (s : State) (ra : BankSel) (c : Nat), s.Ready → ra.toNat < s.cfg.nb → c ≤ s.cfg.cap →
    exec (.scanf ra c) s =
      .next (answered (chainRes0 s ra.toNat c) 0 (!chainCarry s ra.toNat c s.cfg.n) s)

/-- R168: `ffs` on `W` bits equals `ffs` built from the `SCANW`-bit primitive by lanes; and `SCANW` has no observable effect:
with another value of it every instruction does the same. -/
def Obligations.NativeScanWidthIsUnobservable : Prop :=
  (∀ (s : State) (x : Nat), configValid s.cfg = true → s.cfg.fits x →
    ffsByLanes s.cfg.scanw s.cfg.w x = ffs s.cfg.w x) ∧
    ∀ (s : State) (i : Instr) (v : Nat),
      exec i { s with cfg := { s.cfg with scanw := v } } =
        mapNext (fun t => { t with cfg := { t.cfg with scanw := v } }) (exec i s)

/-- R166: the host loop that re-seeds SCANF at the result + 1 reports exactly the set bits of the bank, in ascending order,
each once, ends, and issues exactly one more SCANF than there are set bits; no cursor it presents faults. -/
def Obligations.EnumerationReportsEverySetBitOnce : Prop :=
  ∀ (s : State) (b : BankSel), s.Ready → b.toNat < s.cfg.nb →
    enumerate b ((setBits s b.toNat).length + 1) 0 s = (setBits s b.toNat, true) ∧
      enumerate b (setBits s b.toNat).length 0 s = (setBits s b.toNat, false)

/-- R166, with other commands between the SCANFs: as long as none of them writes the bank and none faults, the loop reports
exactly the set bits of the bank, in ascending order, each once, and ends with one more SCANF than there are set bits. -/
def Obligations.EnumerationSurvivesOtherCommands : Prop :=
  ∀ (s : State) (b : BankSel) (others : List (List Instr)) (out : List Nat × Bool), s.Ready → b.toNat < s.cfg.nb →
    others.length = (setBits s b.toNat).length + 1 →
    (∀ is ∈ others, ∀ i ∈ is, i.wellFormed s.cfg = true ∧ ∀ k, ¬writesWord s.cfg i b.toNat k) →
    enumerateAmid b others 0 s = some out → out = (setBits s b.toNat, true)

/-! ### Host word access -/

/-- R180: RDW answers the word `BF[RA][k]` and writes nothing; it raises BANK_RANGE or, for `k >= N`, INDEX_RANGE. -/
def Obligations.RdwResult : Prop :=
  (∀ (s : State) (ra : BankSel) (k : Nat), s.fcause = 0#4 → Memory.wf s.cfg s.bf = true →
    (encodeCmd (.rdw ra k)).toNat = 0x0000000F + 4096 * ra.toNat ∧
    (ra.toNat < s.cfg.nb → k < s.cfg.n →
      ∃ x, memRead ra.toNat k s = some x ∧ exec (.rdw ra k) s = .next (answered x 0 false s)) ∧
    (s.cfg.nb ≤ ra.toNat → exec (.rdw ra k) s = .next (faultEntered 2#4 (encodeCmd (.rdw ra k)) s)) ∧
    (ra.toNat < s.cfg.nb → s.cfg.n ≤ k →
      exec (.rdw ra k) s = .next (faultEntered 3#4 (encodeCmd (.rdw ra k)) s))) ∧
    unusedBitsFault 0x0F#8 0xFFFF0F00#32

/-- R181: WRW writes `OPB` to the one word `BF[RD][k]`; every other word keeps its value and nothing is answered; it raises
BANK_RANGE or, for `k >= N`, INDEX_RANGE. -/
def Obligations.WrwResult : Prop :=
  (∀ (s : State) (rd : BankSel) (k data : Nat), s.fcause = 0#4 → Memory.wf s.cfg s.bf = true →
    (encodeCmd (.wrw rd k data)).toNat = 0x00000010 + 256 * rd.toNat ∧
    (rd.toNat < s.cfg.nb → k < s.cfg.n →
      ∃ t, exec (.wrw rd k data) s = .next t ∧ t = answered 0 0 false { s with bf := t.bf } ∧
        ∀ b j, memRead b j t = if b = rd.toNat ∧ j = k then some data else memRead b j s) ∧
    (s.cfg.nb ≤ rd.toNat → exec (.wrw rd k data) s = .next (faultEntered 2#4 (encodeCmd (.wrw rd k data)) s)) ∧
    (rd.toNat < s.cfg.nb → s.cfg.n ≤ k →
      exec (.wrw rd k data) s = .next (faultEntered 3#4 (encodeCmd (.wrw rd k data)) s))) ∧
    unusedBitsFault 0x10#8 0xFFFFF000#32

/-- R182: RDW after WRW returns the word written, and BTST its bits. -/
def Obligations.ReadAfterWrite : Prop :=
  ∀ (s : State) (d : BankSel) (k v : Nat), s.Ready → d.toNat < s.cfg.nb → k < s.cfg.n → s.cfg.fits v →
    ∃ t, exec (.wrw d k v) s = .next t ∧ exec (.rdw d k) t = .next (answered v 0 false t) ∧
      ∀ p, p < s.cfg.w → exec (.btst d (k * s.cfg.w + p)) t = .next (answered 0 0 (v.testBit p) t)

/-- R182, R231: `N` WRW commands, one per word index, bring a bank from any content to a fully known one and leave every
other bank as it was. -/
def Obligations.WritingEveryWordInitialisesABank : Prop :=
  ∀ (s : State) (d : BankSel) (words : List Nat), s.Ready → d.toNat < s.cfg.nb → words.length = s.cfg.n →
    (∀ x ∈ words, s.cfg.fits x) →
    ∃ t, core.run s.cfg.n { s with pending := writeAll d 0 words } = .next t ∧ t.fcause = 0#4 ∧ t.pending = [] ∧
      t.bf = s.bf.set d.toNat words
end

