-- ==== Sys2Proof/Laws/Encoding.lean ====
section
/-! SUPPORT. The fields of the command word (30_encoding.md R61, R62): packing, unpacking, and the used mask. -/

namespace Sys2Proof

/-- R61: `CMD = OP + 256·RD + 4096·RA + 65536·RB`. -/
theorem packCmd_toNat (rb ra rd : BankSel) (op : BitVec 8) :
    (packCmd rb ra rd op).toNat = op.toNat + 256 * rd.toNat + 4096 * ra.toNat + 65536 * rb.toNat := by
  have := op.isLt; have := rd.isLt; have := ra.isLt; have := rb.isLt
  simp only [packCmd, BitVec.toNat_append, BitVec.toNat_ofNat]
  rw [← Nat.shiftLeft_add_eq_or_of_lt (by omega), ← Nat.shiftLeft_add_eq_or_of_lt (by omega),
    ← Nat.shiftLeft_add_eq_or_of_lt (by omega), ← Nat.shiftLeft_add_eq_or_of_lt (by omega)]
  simp only [Nat.shiftLeft_eq]
  omega

theorem fieldOp_toNat (c : BitVec 32) : (fieldOp c).toNat = c.toNat % 256 := by
  simp [fieldOp, BitVec.extractLsb'_toNat]

theorem fieldRd_toNat (c : BitVec 32) : (fieldRd c).toNat = c.toNat / 256 % 16 := by
  simp [fieldRd, BitVec.extractLsb'_toNat, Nat.shiftRight_eq_div_pow]

theorem fieldRa_toNat (c : BitVec 32) : (fieldRa c).toNat = c.toNat / 4096 % 16 := by
  simp [fieldRa, BitVec.extractLsb'_toNat, Nat.shiftRight_eq_div_pow]

theorem fieldRb_toNat (c : BitVec 32) : (fieldRb c).toNat = c.toNat / 65536 % 16 := by
  simp [fieldRb, BitVec.extractLsb'_toNat, Nat.shiftRight_eq_div_pow]

section fields
variable (rb ra rd : BankSel) (op : BitVec 8)

@[simp] theorem fieldOp_packCmd : fieldOp (packCmd rb ra rd op) = op := by
  apply BitVec.eq_of_toNat_eq; rw [fieldOp_toNat, packCmd_toNat]; have := op.isLt; omega

@[simp] theorem fieldRd_packCmd : fieldRd (packCmd rb ra rd op) = rd := by
  apply BitVec.eq_of_toNat_eq; rw [fieldRd_toNat, packCmd_toNat]; have := op.isLt; have := rd.isLt; omega

@[simp] theorem fieldRa_packCmd : fieldRa (packCmd rb ra rd op) = ra := by
  apply BitVec.eq_of_toNat_eq; rw [fieldRa_toNat, packCmd_toNat]
  have := op.isLt; have := rd.isLt; have := ra.isLt; omega

@[simp] theorem fieldRb_packCmd : fieldRb (packCmd rb ra rd op) = rb := by
  apply BitVec.eq_of_toNat_eq; rw [fieldRb_toNat, packCmd_toNat]
  have := op.isLt; have := rd.isLt; have := ra.isLt; have := rb.isLt; omega

end fields

/-- The bits outside the used mask, field by field. -/
theorem not_usedMask (f : Format) : ~~~(usedMask f) = match f with
    | .S => 0xFFF#12 ++ 0xF#4 ++ 0xF#4 ++ 0xF#4 ++ 0x00#8
    | .A => 0xFFF#12 ++ 0xF#4 ++ 0x0#4 ++ 0xF#4 ++ 0x00#8
    | .D => 0xFFF#12 ++ 0xF#4 ++ 0xF#4 ++ 0x0#4 ++ 0x00#8
    | .T => 0xFFF#12 ++ 0x0#4 ++ 0x0#4 ++ 0x0#4 ++ 0x00#8 := by
  cases f <;> decide

/-- A command word is its ZERO field and its four named fields. -/
theorem cmd_eq_fields (c : BitVec 32) :
    c = c.extractLsb' 20 12 ++ fieldRb c ++ fieldRa c ++ fieldRd c ++ fieldOp c := by
  apply BitVec.eq_of_toNat_eq
  simp only [BitVec.toNat_append, BitVec.extractLsb'_toNat, fieldOp, fieldRd, fieldRa, fieldRb]
  rw [← Nat.shiftLeft_add_eq_or_of_lt (by omega), ← Nat.shiftLeft_add_eq_or_of_lt (by omega),
    ← Nat.shiftLeft_add_eq_or_of_lt (by omega), ← Nat.shiftLeft_add_eq_or_of_lt (by omega)]
  simp only [Nat.shiftLeft_eq, Nat.shiftRight_eq_div_pow]
  have := c.isLt
  omega

/-- Masking acts field by field. -/
theorem and_fields (z z' : BitVec 12) (b b' a a' d d' : BankSel) (o o' : BitVec 8) :
    (z ++ b ++ a ++ d ++ o : BitVec 32) &&& (z' ++ b' ++ a' ++ d' ++ o' : BitVec 32) =
      ((z &&& z') ++ (b &&& b') ++ (a &&& a') ++ (d &&& d') ++ (o &&& o') : BitVec 32) := by
  erw [BitVec.and_append (x₁ := z ++ b ++ a ++ d), BitVec.and_append (x₁ := z ++ b ++ a),
    BitVec.and_append (x₁ := z ++ b), BitVec.and_append (x₁ := z)]

/-- Two words are equal exactly when their fields are. -/
theorem fields_inj {z z' : BitVec 12} {b b' a a' d d' : BankSel} {o o' : BitVec 8} :
    (z ++ b ++ a ++ d ++ o : BitVec 32) = (z' ++ b' ++ a' ++ d' ++ o' : BitVec 32) ↔
      z = z' ∧ b = b' ∧ a = a' ∧ d = d' ∧ o = o' := by
  refine ⟨fun h => ?_, by rintro ⟨rfl, rfl, rfl, rfl, rfl⟩; rfl⟩
  have h := congrArg BitVec.toNat h
  simp only [BitVec.toNat_append] at h
  rw [← Nat.shiftLeft_add_eq_or_of_lt (by omega), ← Nat.shiftLeft_add_eq_or_of_lt (by omega),
    ← Nat.shiftLeft_add_eq_or_of_lt (by omega), ← Nat.shiftLeft_add_eq_or_of_lt (by omega),
    ← Nat.shiftLeft_add_eq_or_of_lt (by omega), ← Nat.shiftLeft_add_eq_or_of_lt (by omega),
    ← Nat.shiftLeft_add_eq_or_of_lt (by omega), ← Nat.shiftLeft_add_eq_or_of_lt (by omega)] at h
  simp only [Nat.shiftLeft_eq] at h
  simp only [← BitVec.toNat_inj]
  omega

/-- R62, R63: which words have no 1 outside the fields their format uses. -/
theorem and_not_usedMask_iff (c : BitVec 32) (f : Format) : c &&& ~~~(usedMask f) = 0#32 ↔ c = match f with
    | .S => packCmd 0#4 0#4 0#4 (fieldOp c)
    | .A => packCmd 0#4 (fieldRa c) 0#4 (fieldOp c)
    | .D => packCmd 0#4 0#4 (fieldRd c) (fieldOp c)
    | .T => packCmd (fieldRb c) (fieldRa c) (fieldRd c) (fieldOp c) := by
  have hz : (0#32 : BitVec 32) = 0#12 ++ 0#4 ++ 0#4 ++ 0#4 ++ 0#8 := by decide
  have ones12 : ∀ z : BitVec 12, z &&& 0xFFF#12 = z := fun _ => BitVec.and_allOnes
  have ones4 : ∀ z : BitVec 4, z &&& 0xF#4 = z := fun _ => BitVec.and_allOnes
  rw [not_usedMask]
  conv_lhs => rw [cmd_eq_fields c, hz]
  cases f <;> conv_rhs => { lhs; rw [cmd_eq_fields c] }
  all_goals
    simp only [packCmd]
    rw [and_fields, fields_inj, fields_inj]
    simp [ones12, ones4]

end Sys2Proof
end

