-- ==== Sys2Proof/Laws/State.lean ====
section
/-! SUPPORT. What each shared update of the state does to each field: one lemma a field, true by unfolding, for `simp`. -/

namespace Sys2Proof.Machine

section complete
variable (r0 r1 : Nat) (f : Bool) (s : State)
@[simp] theorem complete_cfg : (complete r0 r1 f s).cfg = s.cfg := rfl
@[simp] theorem complete_bf : (complete r0 r1 f s).bf = s.bf := rfl
@[simp] theorem complete_fcause : (complete r0 r1 f s).fcause = s.fcause := rfl
@[simp] theorem complete_fcmd : (complete r0 r1 f s).fcmd = s.fcmd := rfl
@[simp] theorem complete_pending : (complete r0 r1 f s).pending = s.pending := rfl
@[simp] theorem complete_resets : (complete r0 r1 f s).resets = s.resets := rfl
@[simp] theorem complete_response : (complete r0 r1 f s).response = some ⟨r0, r1, f, s.fcause, s.fcmd⟩ := rfl
end complete

section raiseFault
variable (c : Cause) (cmd : BitVec 32) (s : State)
@[simp] theorem raiseFault_cfg : (raiseFault c cmd s).cfg = s.cfg := rfl
@[simp] theorem raiseFault_bf : (raiseFault c cmd s).bf = s.bf := rfl
@[simp] theorem raiseFault_fcause : (raiseFault c cmd s).fcause = causeCode c := rfl
@[simp] theorem raiseFault_fcmd : (raiseFault c cmd s).fcmd = cmd := rfl
@[simp] theorem raiseFault_pending : (raiseFault c cmd s).pending = s.pending := rfl
@[simp] theorem raiseFault_resets : (raiseFault c cmd s).resets = s.resets := rfl
@[simp] theorem raiseFault_response : (raiseFault c cmd s).response = some ⟨0, 0, false, causeCode c, cmd⟩ := rfl
end raiseFault

section ignoreCommand
variable (s : State)
@[simp] theorem ignoreCommand_cfg : (ignoreCommand s).cfg = s.cfg := rfl
@[simp] theorem ignoreCommand_bf : (ignoreCommand s).bf = s.bf := rfl
@[simp] theorem ignoreCommand_fcause : (ignoreCommand s).fcause = s.fcause := rfl
@[simp] theorem ignoreCommand_fcmd : (ignoreCommand s).fcmd = s.fcmd := rfl
@[simp] theorem ignoreCommand_pending : (ignoreCommand s).pending = s.pending := rfl
@[simp] theorem ignoreCommand_resets : (ignoreCommand s).resets = s.resets := rfl
@[simp] theorem ignoreCommand_response : (ignoreCommand s).response = some ⟨0, 0, false, s.fcause, s.fcmd⟩ := rfl
end ignoreCommand

section resetUnit
variable (s : State)
@[simp] theorem resetUnit_cfg : (resetUnit s).cfg = s.cfg := rfl
@[simp] theorem resetUnit_bf : (resetUnit s).bf = freshStore s.cfg (s.resets + 1) := rfl
@[simp] theorem resetUnit_fcause : (resetUnit s).fcause = 0#4 := rfl
@[simp] theorem resetUnit_fcmd : (resetUnit s).fcmd = 0#32 := rfl
@[simp] theorem resetUnit_pending : (resetUnit s).pending = s.pending := rfl
@[simp] theorem resetUnit_resets : (resetUnit s).resets = s.resets + 1 := rfl
@[simp] theorem resetUnit_response : (resetUnit s).response = none := rfl
end resetUnit

/-- Every cause has a code from 1 to 6 (R200). -/
theorem causeCode_range (c : Cause) : causeCode c ≠ 0#4 ∧ 1#4 ≤ causeCode c ∧ causeCode c ≤ 6#4 := by
  cases c <;> decide

@[simp] theorem causeCode_ne_zero (c : Cause) : causeCode c ≠ 0#4 := (causeCode_range c).1

/-- The codes tell the causes apart. -/
theorem causeCode_injective {c d : Cause} (h : causeCode c = causeCode d) : c = d := by
  cases c <;> cases d <;> first | rfl | exact absurd h (by decide)

end Sys2Proof.Machine
end

