-- ==== Sys2Proof/Laws/Memory.lean ====
section
/-! SUPPORT. The store: what a read, a write and a sweep can do, and that each keeps the canonical form `Memory.wf`. -/

namespace Sys2Proof.Machine

variable {s t : State} {b k : Nat} {v x : Nat}

/-- The canonical form, said of the reads of a list of lists. -/
theorem Memory.wf_iff (c : Config) (m : Memory) : Memory.wf c m = true ↔
    m.length = c.nb ∧ ∀ bank ∈ m, bank.length = c.n ∧ ∀ x ∈ bank, c.fits x := by
  simp [Memory.wf, List.all_eq_true]

theorem memRead_congr_bf (h : s.bf = t.bf) : memRead b k s = memRead b k t := by simp [memRead, h]

@[simp] theorem memRead_complete (r0 r1 : Nat) (f : Bool) (s : State) :
    memRead b k (complete r0 r1 f s) = memRead b k s := rfl

/-- In a store in canonical form the words that exist are exactly those of R40. -/
theorem memRead_isSome_iff (h : Memory.wf s.cfg s.bf = true) :
    (memRead b k s).isSome = true ↔ b < s.cfg.nb ∧ k < s.cfg.n := by
  obtain ⟨hl, hb⟩ := (Memory.wf_iff _ _).1 h
  unfold memRead
  by_cases hlt : b < s.bf.length
  · have hn := (hb _ (List.getElem_mem hlt)).1
    simp [hn, ← hl, hlt]
  · simp [← hl, hlt]

/-- A word of a store in canonical form fits `W` bits. -/
theorem memRead_fits (h : Memory.wf s.cfg s.bf = true) (hr : memRead b k s = some x) : s.cfg.fits x := by
  obtain ⟨-, hb⟩ := (Memory.wf_iff _ _).1 h
  obtain ⟨bank, hbank, hx⟩ := Option.bind_eq_some_iff.1 hr
  exact (hb _ (List.mem_of_getElem? hbank)).2 _ (List.mem_of_getElem? hx)

/-- A read inside the store answers a word that fits. -/
theorem memRead_of_wf (h : Memory.wf s.cfg s.bf = true) (hb : b < s.cfg.nb) (hk : k < s.cfg.n) :
    ∃ x, memRead b k s = some x ∧ s.cfg.fits x := by
  obtain ⟨x, hx⟩ := Option.isSome_iff_exists.1 ((memRead_isSome_iff h).2 ⟨hb, hk⟩)
  exact ⟨x, hx, memRead_fits h hx⟩

/-- Two lists of lists of the same lengths that read alike are equal. -/
theorem bf_ext_of_reads (hs : Memory.wf s.cfg s.bf = true) (ht : Memory.wf s.cfg t.bf = true)
    (h : ∀ b k, memRead b k s = memRead b k t) : s.bf = t.bf := by
  obtain ⟨hl, hb⟩ := (Memory.wf_iff _ _).1 hs
  obtain ⟨hl', hb'⟩ := (Memory.wf_iff _ _).1 ht
  refine List.ext_getElem (hl.trans hl'.symm) fun b h₁ h₂ => ?_
  refine List.ext_getElem? fun k => ?_
  simpa [memRead, List.getElem?_eq_getElem h₁, List.getElem?_eq_getElem h₂] using h b k

/-- A write succeeds exactly where a read does. -/
theorem memWrite_isSome : (memWrite b k v s).isSome = (memRead b k s).isSome := by
  unfold memWrite memRead
  cases hb : s.bf[b]? with
  | none => rfl
  | some bank => by_cases hk : k < bank.length <;> simp [hk]

/-- Everything a write can do: it changes `BF` alone, the word written reads as the value, and every other location is as
before. -/
theorem memWrite_spec (h : memWrite b k v s = some t) :
    t = { s with bf := t.bf } ∧ (memRead b k s).isSome = true ∧
      ∀ b' k', memRead b' k' t = if b' = b ∧ k' = k then some v else memRead b' k' s := by
  have hsome : (memRead b k s).isSome = true := by rw [← memWrite_isSome (v := v), h]; rfl
  unfold memWrite at h
  cases hb : s.bf[b]? with
  | none => simp [hb] at h
  | some bank =>
    obtain ⟨hblt, hbank⟩ := List.getElem?_eq_some_iff.1 hb
    by_cases hk : k < bank.length
    · simp only [hb, hk, if_true, Option.some.injEq] at h
      subst h
      refine ⟨rfl, hsome, fun b' k' => ?_⟩
      by_cases hb' : b' = b
      · subst hb'
        by_cases hk' : k' = k
        · subst hk'; simp [memRead, hblt, hk]
        · simp [memRead, hblt, hbank, Ne.symm hk', hk']
      · simp [memRead, Ne.symm hb', hb']
    · simp [hb, hk] at h

/-- Writing a value that fits keeps the canonical form. -/
theorem memWrite_keeps_wf (h : memWrite b k v s = some t) (hs : Memory.wf s.cfg s.bf = true) (hv : s.cfg.fits v) :
    Memory.wf s.cfg t.bf = true := by
  obtain ⟨hl, hbanks⟩ := (Memory.wf_iff _ _).1 hs
  unfold memWrite at h
  cases hb : s.bf[b]? with
  | none => simp [hb] at h
  | some bank =>
    by_cases hk : k < bank.length
    · simp only [hb, hk, if_true, Option.some.injEq] at h
      subst h
      obtain ⟨hn, hfits⟩ := hbanks bank (List.mem_of_getElem? hb)
      refine (Memory.wf_iff _ _).2 ⟨by simpa using hl, fun bank' hmem => ?_⟩
      rcases List.mem_or_eq_of_mem_set hmem with hold | rfl
      · exact hbanks _ hold
      · refine ⟨by simpa using hn, fun x hx => ?_⟩
        rcases List.mem_or_eq_of_mem_set hx with hx | rfl
        · exact hfits _ hx
        · exact hv
    · simp [hb, hk] at h

/-- Everything a sweep of BAND or BXOR can do, whatever aliases (R152 b): the positions swept get the operation on the words
before the command, every other location is as before. -/
theorem combineFrom_spec {op : Nat → Nat → Nat} {rd ra rb : Nat} :
    ∀ {count k : Nat} {s t : State}, combineFrom op rd ra rb count k s = some t →
      t = { s with bf := t.bf } ∧
      (∀ j, k ≤ j → j < k + count → ∃ x y, memRead ra j s = some x ∧ memRead rb j s = some y ∧
        memRead rd j t = some (op x y)) ∧
      ∀ b j, (b ≠ rd ∨ j < k ∨ k + count ≤ j) → memRead b j t = memRead b j s := by
  intro count
  induction count with
  | zero =>
    intro k s t h
    cases h
    exact ⟨rfl, fun j h₁ h₂ => by omega, fun _ _ _ => rfl⟩
  | succ n ih =>
    intro k s t h
    obtain ⟨x, hx, h⟩ := Option.bind_eq_some_iff.1 h
    obtain ⟨y, hy, h⟩ := Option.bind_eq_some_iff.1 h
    obtain ⟨u, hu, h⟩ := Option.bind_eq_some_iff.1 h
    obtain ⟨heq, hswept, hrest⟩ := ih h
    obtain ⟨hueq, -, hread⟩ := memWrite_spec hu
    have hkeep : ∀ b j, j ≠ k → memRead b j u = memRead b j s := fun b j hj => by simp [hread, hj]
    refine ⟨by rw [heq, hueq], fun j h₁ h₂ => ?_, fun b j hbj => ?_⟩
    · rcases Nat.eq_or_lt_of_le h₁ with rfl | hlt
      · exact ⟨x, y, hx, hy, by simp [hrest rd k (by omega), hread]⟩
      · obtain ⟨x', y', hx', hy', ht⟩ := hswept j hlt (by omega)
        rw [hkeep _ _ (by omega)] at hx' hy'
        exact ⟨x', y', hx', hy', ht⟩
    · rw [hrest b j (by omega), hread]
      simp only [ite_eq_right_iff, and_imp]
      rintro rfl rfl
      omega

/-- A sweep inside the store completes. -/
theorem combineFrom_isSome {op : Nat → Nat → Nat} {rd ra rb : Nat} :
    ∀ {count k : Nat} {s : State}, (∀ j, k ≤ j → j < k + count →
      (memRead ra j s).isSome = true ∧ (memRead rb j s).isSome = true ∧ (memRead rd j s).isSome = true) →
      ∃ t, combineFrom op rd ra rb count k s = some t := by
  intro count
  induction count with
  | zero => exact fun _ => ⟨_, rfl⟩
  | succ n ih =>
    intro k s h
    obtain ⟨ha, hb, hd⟩ := h k le_rfl (by omega)
    obtain ⟨x, hx⟩ := Option.isSome_iff_exists.1 ha
    obtain ⟨y, hy⟩ := Option.isSome_iff_exists.1 hb
    rw [← memWrite_isSome (v := op x y)] at hd
    obtain ⟨u, hu⟩ := Option.isSome_iff_exists.1 hd
    obtain ⟨-, -, hread⟩ := memWrite_spec hu
    have hkeep : ∀ b j, j ≠ k → memRead b j u = memRead b j s := fun b j hj => by simp [hread, hj]
    obtain ⟨t, ht⟩ := ih (k := k + 1) (s := u) fun j h₁ h₂ => by
      simpa only [hkeep _ j (by omega : j ≠ k)] using h j (by omega) (by omega)
    exact ⟨t, by simp [combineFrom, hx, hy, hu, ht]⟩

/-- A sweep with an operation that keeps words within `W` bits keeps the canonical form. -/
theorem combineFrom_keeps_wf {op : Nat → Nat → Nat} {rd ra rb : Nat} {c : Config}
    (hop : ∀ x y, c.fits x → c.fits y → c.fits (op x y)) :
    ∀ {count k : Nat} {s t : State}, combineFrom op rd ra rb count k s = some t → s.cfg = c →
      Memory.wf c s.bf = true → Memory.wf c t.bf = true := by
  intro count
  induction count with
  | zero => intro k s t h _ hs; cases h; exact hs
  | succ n ih =>
    intro k s t h hc hs
    subst hc
    obtain ⟨x, hx, h⟩ := Option.bind_eq_some_iff.1 h
    obtain ⟨y, hy, h⟩ := Option.bind_eq_some_iff.1 h
    obtain ⟨u, hu, h⟩ := Option.bind_eq_some_iff.1 h
    have hcfg : u.cfg = s.cfg := by rw [(memWrite_spec hu).1]
    exact ih h hcfg (memWrite_keeps_wf hu hs (hop x y (memRead_fits hs hx) (memRead_fits hs hy)))

/-- Everything a run of reads can answer. -/
theorem memReadFrom_spec {b : Nat} {s : State} :
    ∀ {count k : Nat} {xs : List Nat}, memReadFrom b s count k = some xs →
      xs.length = count ∧ ∀ j, j < count → memRead b (k + j) s = xs[j]? := by
  intro count
  induction count with
  | zero => intro k xs h; cases h; exact ⟨rfl, fun j hj => absurd hj (Nat.not_lt_zero j)⟩
  | succ n ih =>
    intro k xs h
    obtain ⟨x, hx, h⟩ := Option.bind_eq_some_iff.1 h
    obtain ⟨ys, hys, rfl⟩ := Option.map_eq_some_iff.1 h
    obtain ⟨hlen, hread⟩ := ih hys
    refine ⟨by simp [hlen], fun j hj => ?_⟩
    cases j with
    | zero => simpa using hx
    | succ j => simpa [Nat.add_assoc, Nat.add_comm 1 j] using hread j (by omega)

/-- A run of reads inside the store completes. -/
theorem memReadFrom_isSome {b : Nat} {s : State} :
    ∀ {count k : Nat}, (∀ j, k ≤ j → j < k + count → (memRead b j s).isSome = true) →
      ∃ xs, memReadFrom b s count k = some xs := by
  intro count
  induction count with
  | zero => exact fun _ => ⟨[], rfl⟩
  | succ n ih =>
    intro k h
    obtain ⟨x, hx⟩ := Option.isSome_iff_exists.1 (h k le_rfl (by omega))
    obtain ⟨xs, hxs⟩ := ih (k := k + 1) fun j h₁ h₂ => h j (by omega) (by omega)
    exact ⟨x :: xs, by simp [memReadFrom, hx, hxs]⟩

/-- The content of `BF` after a reset is in canonical form, whatever the free value is. -/
theorem freshStore_wf (c : Config) (epoch : Nat) : Memory.wf c (freshStore c epoch) = true := by
  refine (Memory.wf_iff _ _).2 ⟨by simp [freshStore], fun bank hbank => ?_⟩
  obtain ⟨b, -, rfl⟩ := List.mem_map.1 hbank
  refine ⟨by simp, fun x hx => ?_⟩
  obtain ⟨k, -, rfl⟩ := List.mem_map.1 hx
  exact (Config.bfInit c.w epoch b k).isLt

end Sys2Proof.Machine
end

