-- ==== Sys2Proof/Laws/Operands.lean ====
section
/-! SUPPORT. What the shared helper functions compute (00_scope.md R8, R10). -/

namespace Sys2Proof.Machine

/-- `1 << s` is `2^s` for a shift inside the word (R130: "the mask never overflows the word"). -/
theorem wordShl_one {w s : Nat} (h : s < w) : wordShl w 1 s = 2 ^ s := by
  simp [wordShl, Nat.mod_eq_of_lt (Nat.pow_lt_pow_right (by decide : 1 < 2) h)]

theorem idx_fst (w i : Nat) : (idx w i).1 = i / w := rfl

theorem idx_snd {w : Nat} (h : 0 < w) (i : Nat) : (idx w i).2 = 2 ^ (i % w) := wordShl_one (Nat.mod_lt i h)

/-- The complement of a word, bit by bit (R8). -/
theorem testBit_wordNot {w x p : Nat} (hx : x < 2 ^ w) : (wordNot w x).testBit p = (decide (p < w) && !x.testBit p) := by
  rw [wordNot, Nat.sub_sub, Nat.add_comm, Nat.testBit_two_pow_sub_succ hx]

/-- The mask of R164 keeps exactly the positions from `bp` on. -/
theorem testBit_maskBelow {w bp p : Nat} :
    (wordShl w (allOnes w) bp).testBit p = (decide (p < w) && decide (bp ≤ p)) := by
  rw [wordShl, Nat.testBit_mod_two_pow, Nat.testBit_mul_two_pow, allOnes, Nat.testBit_two_pow_sub_one]
  by_cases h : bp ≤ p <;> by_cases hw : p < w <;> simp [h, hw]
  omega

/-- Two words of at most `w` bits are equal when their bits are. -/
theorem word_ext {w x y : Nat} (hx : x < 2 ^ w) (hy : y < 2 ^ w)
    (h : ∀ p, p < w → x.testBit p = y.testBit p) : x = y := by
  refine Nat.eq_of_testBit_eq fun p => ?_
  by_cases hp : p < w
  · exact h p hp
  · have hle : 2 ^ w ≤ 2 ^ p := Nat.pow_le_pow_right (by decide) (not_lt.1 hp)
    rw [Nat.testBit_lt_two_pow (lt_of_lt_of_le hx hle), Nat.testBit_lt_two_pow (lt_of_lt_of_le hy hle)]

/-- A word other than 0 has a 1 bit below its width. -/
theorem exists_testBit {w x : Nat} (hx : x < 2 ^ w) (h0 : x ≠ 0) : ∃ p, p < w ∧ x.testBit p = true := by
  by_contra hno
  push Not at hno
  exact h0 (word_ext hx (Nat.two_pow_pos w) fun p hp => by simpa using hno p hp)

/-- Exactly one position below `w` is counted exactly when there is exactly one (R100). -/
theorem bitCount_eq_one_iff (w : Nat) (v : Nat) : bitCount w v = 1 ↔ ∃! p, p < w ∧ v.testBit p = true := by
  have hn : ((List.range w).filter fun p => v.testBit p).Nodup := List.nodup_range.filter _
  rw [bitCount, List.countP_eq_length_filter, ← List.toFinset_card_of_nodup hn, Finset.card_eq_one]
  constructor
  · rintro ⟨p, hp⟩
    have hmem : ∀ q, q ∈ ((List.range w).filter fun p => v.testBit p).toFinset ↔ q = p := fun q => by rw [hp]; simp
    simp only [List.mem_toFinset, List.mem_filter, List.mem_range] at hmem
    exact ⟨p, (hmem p).2 rfl, fun q hq => (hmem q).1 hq⟩
  · rintro ⟨p, hp, huniq⟩
    refine ⟨p, Finset.ext fun q => ?_⟩
    simp only [List.mem_toFinset, List.mem_filter, List.mem_range, Finset.mem_singleton]
    exact ⟨huniq q, by rintro rfl; exact hp⟩

/-- `ispow2` as R100 says it. -/
theorem ispow2_iff_unique (w : Nat) (v : Nat) : ispow2 w v = true ↔ v ≠ 0 ∧ ∃! p, p < w ∧ v.testBit p = true := by
  simp [ispow2, bitCount_eq_one_iff]

/-- A word has exactly one 1 bit exactly when it is a power of two. -/
theorem ispow2_iff {w : Nat} {v : Nat} (hv : v < 2 ^ w) : ispow2 w v = true ↔ ∃ e, v = 2 ^ e := by
  rw [ispow2_iff_unique]
  constructor
  · rintro ⟨-, e, ⟨he, hbit⟩, huniq⟩
    refine ⟨e, word_ext hv (Nat.pow_lt_pow_right (by decide) he) fun p hp => ?_⟩
    rw [Nat.testBit_two_pow]
    by_cases h : v.testBit p = true
    · simp [huniq p ⟨hp, h⟩, hbit]
    · have : e ≠ p := by rintro rfl; exact h hbit
      simp [h, this]
  · rintro ⟨e, rfl⟩
    have he : e < w := (Nat.pow_lt_pow_iff_right (by decide)).1 hv
    refine ⟨(Nat.two_pow_pos e).ne', e, ⟨he, by simp⟩, fun q hq => ?_⟩
    have := hq.2
    rw [Nat.testBit_two_pow] at this
    simpa using (of_decide_eq_true this).symm

/-- The loop of R103 ends with the position of the top 1 bit, or where it began for 0. -/
theorem log2Loop_spec : ∀ {turns : Nat} {t : Nat} {n : Nat}, t < 2 ^ (turns + 1) →
    ∃ e, log2Loop turns t n = n + e ∧ (t = 0 → e = 0) ∧ (0 < t → 2 ^ e ≤ t ∧ t < 2 ^ (e + 1)) := by
  intro turns
  induction turns with
  | zero => intro t n h; exact ⟨0, rfl, fun _ => rfl, fun h0 => by simp at h ⊢; omega⟩
  | succ turns ih =>
    intro t n h
    by_cases h1 : 1 < t
    · obtain ⟨e, he, -, hs⟩ := ih (t := t >>> 1) (n := n + 1) (by rw [Nat.shiftRight_eq_div_pow]; omega)
      rw [Nat.shiftRight_eq_div_pow] at hs
      refine ⟨e + 1, by simp [log2Loop, h1, he, Nat.add_assoc, Nat.add_comm 1 e], fun h0 => by omega, fun _ => ?_⟩
      have := hs (by omega)
      rw [pow_succ] at this
      rw [pow_succ, pow_succ]
      omega
    · exact ⟨0, by simp [log2Loop, h1], fun _ => rfl, fun h0 => by simp; omega⟩

/-- `log2floor` of a `w`-bit word (R103). -/
theorem log2floor_spec {w : Nat} {u : Nat} (hu : u < 2 ^ w) :
    (u = 0 → log2floor w u = 0) ∧ (0 < u → 2 ^ log2floor w u ≤ u ∧ u < 2 ^ (log2floor w u + 1)) := by
  obtain ⟨e, he, h0, hs⟩ := log2Loop_spec (turns := w) (t := u) (n := 0) (by rw [pow_succ]; omega)
  rw [log2floor, he, Nat.zero_add]
  exact ⟨h0, hs⟩

/-- `alignUp` gives the least multiple at or above (R101), and no more than one alignment above. -/
theorem alignUp_spec {value alignment : Nat} (ha : 0 < alignment) :
    value ≤ alignUp value alignment ∧ alignUp value alignment % alignment = 0 ∧
      ∀ r, value ≤ r → r % alignment = 0 → alignUp value alignment ≤ r := by
  refine ⟨?_, by simp [alignUp], fun r hr hmod => ?_⟩
  · have := Nat.div_add_mod (value + alignment - 1) alignment
    have := Nat.mod_lt (value + alignment - 1) ha
    rw [alignUp, Nat.mul_comm]; omega
  · obtain ⟨q, rfl⟩ := Nat.dvd_of_mod_eq_zero hmod
    rw [alignUp, Nat.mul_comm alignment q]
    refine Nat.mul_le_mul_right _ (Nat.lt_succ_iff.1 ((Nat.div_lt_iff_lt_mul ha).2 ?_))
    rw [Nat.succ_mul, Nat.mul_comm q]; omega

/-- `roundUpQuotient` gives the exact ceiling (R104). -/
theorem roundUpQuotient_spec {dividend divisor : Nat} (hd : 0 < divisor) :
    dividend ≤ roundUpQuotient dividend divisor * divisor ∧
      ∀ q, dividend ≤ q * divisor → roundUpQuotient dividend divisor ≤ q := by
  have hdm := Nat.div_add_mod dividend divisor
  have hlt := Nat.mod_lt dividend hd
  rw [roundUpQuotient]
  split
  · refine ⟨by rw [Nat.add_mul, Nat.mul_comm]; omega, fun q hq => ?_⟩
    refine Nat.succ_le_of_lt ((Nat.mul_lt_mul_left hd).1 ?_)
    rw [Nat.mul_comm divisor q]; omega
  · refine ⟨by rw [Nat.add_zero, Nat.mul_comm]; omega, fun q hq => ?_⟩
    refine (Nat.mul_le_mul_left_iff hd).1 ?_
    rw [Nat.add_zero, Nat.mul_comm divisor q]; omega

/-- `powerOfTwo` is what its name says. -/
theorem powerOfTwo_iff (v : Nat) : powerOfTwo v = true ↔ ∃ e, v = 2 ^ e := by
  simp only [powerOfTwo, Bool.and_eq_true, bne_iff_ne, beq_iff_eq]
  refine ⟨fun h => ⟨_, h.2⟩, ?_⟩
  rintro ⟨e, rfl⟩
  exact ⟨(Nat.two_pow_pos e).ne', by rw [Nat.log2_two_pow]⟩

/-- The constraints of R6, as a reader says them. -/
theorem configValid_iff (c : Config) : configValid c = true ↔
    (∃ e, c.scanw = 2 ^ e) ∧ 8 ≤ c.scanw ∧ (∃ k, c.w = c.scanw * 2 ^ k) ∧ 1 ≤ c.n ∧ 1 ≤ c.nb ∧ c.nb ≤ 16 ∧
      c.n * c.w ≤ 2 ^ c.w - 1 := by
  simp only [configValid, Bool.and_eq_true, decide_eq_true_eq, beq_iff_eq, powerOfTwo_iff]
  constructor
  · rintro ⟨⟨⟨⟨⟨⟨⟨hs, h8⟩, hm⟩, k, hk⟩, hn⟩, hb⟩, hb'⟩, hc⟩
    refine ⟨hs, h8, ⟨k, ?_⟩, hn, hb, hb', hc⟩
    rw [← hk, Nat.mul_div_cancel' (Nat.dvd_of_mod_eq_zero hm)]
  · rintro ⟨hs, h8, ⟨k, hk⟩, hn, hb, hb', hc⟩
    refine ⟨⟨⟨⟨⟨⟨⟨hs, h8⟩, by simp [hk]⟩, k, ?_⟩, hn⟩, hb⟩, hb'⟩, hc⟩
    rw [hk, Nat.mul_div_cancel_left _ (by omega)]

/-- The word width of a configuration that meets R6 is at least 8. -/
theorem configValid_width {c : Config} (h : configValid c = true) : 8 ≤ c.w := by
  obtain ⟨-, h8, ⟨k, hk⟩, -⟩ := (configValid_iff c).1 h
  rw [hk]
  exact le_trans h8 (Nat.le_mul_of_pos_right _ (Nat.two_pow_pos k))

end Sys2Proof.Machine
end

