-- ==== Sys2Proof/Laws/Ops.lean ====
section
/-! SUPPORT. The shared frame of every command: what the guards of R72 can answer, and the one inversion of `exec`. -/

namespace Sys2Proof.Machine

variable {s t : State} {i : Instr} {body : Result}

/-- The faulted unit ignores a command (R204). -/
theorem guarded_of_faulted (h : s.fcause ≠ 0#4) : guarded i s body = .next (ignoreCommand s) := by
  simp [guarded, unlessFaulted, h]

/-- An unfaulted unit whose selectors all exist runs the command's pseudocode. -/
theorem guarded_of_ready (h : s.fcause = 0#4) (hsel : ∀ sel ∈ selectorsOf i, sel.toNat < s.cfg.nb) :
    guarded i s body = body := by
  have : (selectorsOf i).all (bankExists s.cfg) = true := by simpa [List.all_eq_true, bankExists] using hsel
  simp [guarded, unlessFaulted, h, this]

/-- A selector `>= NB` raises `BANK_RANGE` (R66). -/
theorem guarded_of_bankRange (h : s.fcause = 0#4) (hsel : ∃ sel ∈ selectorsOf i, s.cfg.nb ≤ sel.toNat) :
    guarded i s body = .next (raiseFault .bankRange (encodeCmd i) s) := by
  have : ¬(selectorsOf i).all (bankExists s.cfg) = true := by
    simpa [List.all_eq_true, bankExists] using hsel
  simp [guarded, unlessFaulted, h, this, faultOf]

/-- The three ways through the guards. -/
theorem guarded_cases (i : Instr) (s : State) (body : Result) :
    (s.fcause ≠ 0#4 ∧ guarded i s body = .next (ignoreCommand s)) ∨
    (s.fcause = 0#4 ∧ (∃ sel ∈ selectorsOf i, s.cfg.nb ≤ sel.toNat) ∧
      guarded i s body = .next (raiseFault .bankRange (encodeCmd i) s)) ∨
    (s.fcause = 0#4 ∧ (∀ sel ∈ selectorsOf i, sel.toNat < s.cfg.nb) ∧ guarded i s body = body) := by
  by_cases h : s.fcause = 0#4
  · by_cases hsel : ∀ sel ∈ selectorsOf i, sel.toNat < s.cfg.nb
    · exact .inr (.inr ⟨h, hsel, guarded_of_ready h hsel⟩)
    · push Not at hsel
      exact .inr (.inl ⟨h, hsel, guarded_of_bankRange h hsel⟩)
  · exact .inl ⟨h, guarded_of_faulted h⟩

/-- An access that may not exist: it goes on with the word there, or stops with `noSuchWord`. -/
theorem orFault_next_iff {α : Type} {r : Option α} {f : α → Result} :
    orFault r f = .next t ↔ ∃ a, r = some a ∧ f a = .next t := by
  cases r <;> simp [orFault]

@[simp] theorem orFault_some {α : Type} (a : α) (f : α → Result) : orFault (some a) f = f a := rfl

/-- Everything a read-modify-write of one bit can do (R141, R142). -/
theorem modifyBit_next {f : Nat → Nat → Nat} {rd : BankSel} {j : Nat} (h : modifyBit f rd j s = .next t) :
    ∃ x u, memRead rd.toNat (j / s.cfg.w) s = some x ∧
      memWrite rd.toNat (j / s.cfg.w) (f x (idx s.cfg.w j).2) s = some u ∧ t = complete 0 0 false u := by
  obtain ⟨x, hx, h⟩ := orFault_next_iff.1 h
  obtain ⟨u, hu, h⟩ := orFault_next_iff.1 h
  exact ⟨x, u, hx, hu, by cases h; rfl⟩

/-- Everything a sweep can do (R150, R151). -/
theorem combineBanks_next {op : Nat → Nat → Nat} {rd ra rb : BankSel} (h : combineBanks op rd ra rb s = .next t) :
    ∃ u, combineFrom op rd.toNat ra.toNat rb.toNat s.cfg.n 0 s = some u ∧ t = complete 0 0 false u := by
  obtain ⟨u, hu, h⟩ := orFault_next_iff.1 h
  exact ⟨u, hu, by cases h; rfl⟩

/-- What a command that ran to its end did to the store: nothing, one write, or a sweep. -/
inductive StoreEffect (s : State) : Instr → State → Prop where
  | none {i : Instr} : StoreEffect s i s
  | bset {rd : BankSel} {j x : Nat} {u : State} (hj : j < s.cfg.cap)
      (hx : memRead rd.toNat (j / s.cfg.w) s = some x)
      (h : memWrite rd.toNat (j / s.cfg.w) (x ||| (idx s.cfg.w j).2) s = some u) : StoreEffect s (.bset rd j) u
  | bclr {rd : BankSel} {j x : Nat} {u : State} (hj : j < s.cfg.cap)
      (hx : memRead rd.toNat (j / s.cfg.w) s = some x)
      (h : memWrite rd.toNat (j / s.cfg.w) (x &&& wordNot s.cfg.w (idx s.cfg.w j).2) s = some u) :
      StoreEffect s (.bclr rd j) u
  | band {rd ra rb : BankSel} {u : State}
      (h : combineFrom (fun x y => x &&& y) rd.toNat ra.toNat rb.toNat s.cfg.n 0 s = some u) :
      StoreEffect s (.band rd ra rb) u
  | bxor {rd ra rb : BankSel} {u : State}
      (h : combineFrom (fun x y => x ^^^ y) rd.toNat ra.toNat rb.toNat s.cfg.n 0 s = some u) :
      StoreEffect s (.bxor rd ra rb) u
  | wrw {rd : BankSel} {k data : Nat} {u : State} (hk : k < s.cfg.n)
      (h : memWrite rd.toNat k data s = some u) : StoreEffect s (.wrw rd k data) u

/-- The one inversion of `exec` (R72): a next state is the ignored command of a faulted unit, fault entry, or the command's
completion on the store its effect left. -/
theorem exec_next_cases (h : exec i s = .next t) :
    (s.fcause ≠ 0#4 ∧ t = ignoreCommand s) ∨
    (s.fcause = 0#4 ∧ ∃ c, c ≠ .illegalCmd ∧ t = raiseFault c (encodeCmd i) s) ∨
    (s.fcause = 0#4 ∧ (∀ sel ∈ selectorsOf i, sel.toNat < s.cfg.nb) ∧
      ∃ u r0 r1 f, StoreEffect s i u ∧ t = complete r0 r1 f u) := by
  have key : ∀ body, guarded i s body = .next t →
      (body = .next t → (∃ c, c ≠ .illegalCmd ∧ t = raiseFault c (encodeCmd i) s) ∨
        ∃ u r0 r1 f, StoreEffect s i u ∧ t = complete r0 r1 f u) →
      (s.fcause ≠ 0#4 ∧ t = ignoreCommand s) ∨
      (s.fcause = 0#4 ∧ ∃ c, c ≠ .illegalCmd ∧ t = raiseFault c (encodeCmd i) s) ∨
      (s.fcause = 0#4 ∧ (∀ sel ∈ selectorsOf i, sel.toNat < s.cfg.nb) ∧
        ∃ u r0 r1 f, StoreEffect s i u ∧ t = complete r0 r1 f u) := by
    intro body hg hbody
    rcases guarded_cases i s body with ⟨hf, he⟩ | ⟨hf, -, he⟩ | ⟨hf, hsel, he⟩ <;> rw [he] at hg
    · exact .inl ⟨hf, by cases hg; rfl⟩
    · exact .inr (.inl ⟨hf, .bankRange, by decide, by cases hg; rfl⟩)
    · rcases hbody hg with hr | hc
      · exact .inr (.inl ⟨hf, hr⟩)
      · exact .inr (.inr ⟨hf, hsel, hc⟩)
  cases i <;> refine key _ h fun hb => ?_
  case ispow2 | log2 | tany | tall => cases hb; exact .inr ⟨s, _, _, _, .none, rfl⟩
  case p2align | p2alignd | ruq | bfidx =>
    repeat' split at hb
    all_goals cases hb
    all_goals first
      | exact .inl ⟨_, by decide, rfl⟩
      | exact .inr ⟨s, _, _, _, .none, rfl⟩
  case btst | rdw | scanf =>
    split at hb
    · cases hb; exact .inl ⟨_, by decide, rfl⟩
    · obtain ⟨x, -, hb⟩ := orFault_next_iff.1 hb
      cases hb; exact .inr ⟨s, _, _, _, .none, rfl⟩
  case bset =>
    split at hb
    · cases hb; exact .inl ⟨_, by decide, rfl⟩
    · obtain ⟨x, u, hx, hu, rfl⟩ := modifyBit_next hb
      exact .inr ⟨u, _, _, _, .bset (Nat.lt_of_not_le ‹_›) hx hu, rfl⟩
  case bclr =>
    split at hb
    · cases hb; exact .inl ⟨_, by decide, rfl⟩
    · obtain ⟨x, u, hx, hu, rfl⟩ := modifyBit_next hb
      exact .inr ⟨u, _, _, _, .bclr (Nat.lt_of_not_le ‹_›) hx hu, rfl⟩
  case band => obtain ⟨u, hu, rfl⟩ := combineBanks_next hb; exact .inr ⟨u, _, _, _, .band hu, rfl⟩
  case bxor => obtain ⟨u, hu, rfl⟩ := combineBanks_next hb; exact .inr ⟨u, _, _, _, .bxor hu, rfl⟩
  case wrw =>
    split at hb
    · cases hb; exact .inl ⟨_, by decide, rfl⟩
    · obtain ⟨u, hu, hb⟩ := orFault_next_iff.1 hb
      cases hb; exact .inr ⟨u, _, _, _, .wrw (Nat.lt_of_not_le ‹_›) hu, rfl⟩

/-- A store effect changes `BF` alone. -/
theorem StoreEffect.frame (h : StoreEffect s i t) : t = { s with bf := t.bf } := by
  cases h with
  | none => rfl
  | bset _ _ h | bclr _ _ h | wrw _ h => exact (memWrite_spec h).1
  | band h | bxor h => exact (combineFrom_spec h).1

/-- What a served interaction can be (R235). -/
theorem serveHost_next_cases (h : serveHost s = .next t) :
    configValid s.cfg = true ∧
      ((s.pending = [] ∧ t = s) ∨
      (∃ rest, s.pending = .reset :: rest ∧ t = resetUnit { s with pending := rest }) ∨
      ∃ c rest, s.pending = .command c :: rest ∧ c.wellFormed s.cfg = true ∧
        issue c { s with pending := rest } = .next t) := by
  unfold serveHost at h
  split at h
  · refine ⟨‹_›, ?_⟩
    split at h
    · rename_i hp; cases h; exact .inl ⟨hp, rfl⟩
    · rename_i rest hp; cases h; exact .inr (.inl ⟨rest, hp, rfl⟩)
    · rename_i c rest hp
      refine .inr (.inr ⟨c, rest, hp, ?_, h⟩)
      unfold issue at h
      split at h
      · assumption
      · cases h
  · cases h

/-- A presented command runs its instruction, or is `ILLEGAL_CMD` (R72). -/
theorem issue_next_cases {c : Command} (h : issue c s = .next t) :
    (∃ i, decode c = .ok i ∧ exec i s = .next t) ∨
    (∃ e, decode c = .error e) ∧
      ((s.fcause ≠ 0#4 ∧ t = ignoreCommand s) ∨ (s.fcause = 0#4 ∧ t = raiseFault .illegalCmd c.cmd s)) := by
  unfold issue at h
  split at h
  · split at h
    · exact .inl ⟨_, ‹_›, h⟩
    · refine .inr ⟨⟨_, ‹_›⟩, ?_⟩
      unfold illegalCommand unlessFaulted at h
      split at h
      · cases h; exact .inr ⟨‹_›, rfl⟩
      · cases h; exact .inl ⟨‹_›, rfl⟩
  · cases h

end Sys2Proof.Machine
end

