-- ==== Sys2Proof/Laws/PerInstr.lean ====
section
/-! SUPPORT. A statement about every instruction as syntax, one lemma a constructor: its command word has no 1 outside the
fields its format uses (30_encoding.md R63) and carries its opcode (R64). -/

namespace Sys2Proof.Laws.EncodedWordInTable

open Sys2Proof

/-- The encoded word has no 1 outside the format's fields, and its opcode field is the instruction's. -/
def Statement (i : Instr) : Prop :=
  encodeCmd i &&& ~~~(usedMask (formatOf i)) = 0#32 ∧ fieldOp (encodeCmd i) = opcodeOf i

theorem ispow2 (v : Nat) : Statement (.ispow2 v) := by simp [Statement, and_not_usedMask_iff, encodeCmd, formatOf]
theorem p2align (a b : Nat) : Statement (.p2align a b) := by simp [Statement, and_not_usedMask_iff, encodeCmd, formatOf]
theorem p2alignd (a b : Nat) : Statement (.p2alignd a b) := by simp [Statement, and_not_usedMask_iff, encodeCmd, formatOf]
theorem log2 (u : Nat) : Statement (.log2 u) := by simp [Statement, and_not_usedMask_iff, encodeCmd, formatOf]
theorem ruq (a b : Nat) : Statement (.ruq a b) := by simp [Statement, and_not_usedMask_iff, encodeCmd, formatOf]
theorem tany (a b : Nat) : Statement (.tany a b) := by simp [Statement, and_not_usedMask_iff, encodeCmd, formatOf]
theorem tall (a b : Nat) : Statement (.tall a b) := by simp [Statement, and_not_usedMask_iff, encodeCmd, formatOf]
theorem bfidx (i : Nat) : Statement (.bfidx i) := by simp [Statement, and_not_usedMask_iff, encodeCmd, formatOf]
theorem btst (ra : BankSel) (i : Nat) : Statement (.btst ra i) := by
  simp [Statement, and_not_usedMask_iff, encodeCmd, formatOf]
theorem bset (rd : BankSel) (i : Nat) : Statement (.bset rd i) := by
  simp [Statement, and_not_usedMask_iff, encodeCmd, formatOf]
theorem bclr (rd : BankSel) (i : Nat) : Statement (.bclr rd i) := by
  simp [Statement, and_not_usedMask_iff, encodeCmd, formatOf]
theorem band (rd ra rb : BankSel) : Statement (.band rd ra rb) := by
  simp [Statement, and_not_usedMask_iff, encodeCmd, formatOf]
theorem bxor (rd ra rb : BankSel) : Statement (.bxor rd ra rb) := by
  simp [Statement, and_not_usedMask_iff, encodeCmd, formatOf]
theorem scanf (ra : BankSel) (c : Nat) : Statement (.scanf ra c) := by
  simp [Statement, and_not_usedMask_iff, encodeCmd, formatOf]
theorem rdw (ra : BankSel) (k : Nat) : Statement (.rdw ra k) := by
  simp [Statement, and_not_usedMask_iff, encodeCmd, formatOf]
theorem wrw (rd : BankSel) (k data : Nat) : Statement (.wrw rd k data) := by
  simp [Statement, and_not_usedMask_iff, encodeCmd, formatOf]

end Sys2Proof.Laws.EncodedWordInTable
end

