-- ==== Sys2Proof/Tests/Slice0.lean ====
section
/-! SUPPORT. The model's own tests: decoding of words written out from the spec, the well-formedness checks, one step per
instruction on the vectors of 95_test_vectors.md, and for every statement with hypotheses a concrete case that meets
them. Expected values are the spec's. -/

namespace Sys2Proof.Tests

open Sys2Proof Sys2Proof.Machine Sys2Proof.Claims

/-! ### Decoding: one word per command, from 95_test_vectors.md and R64 -/

theorem test_decode_ispow2 : decode ⟨0x00000001#32, 3, 0⟩ = .ok (.ispow2 3) := by decide
theorem test_decode_p2align : decode ⟨0x00000002#32, 13, 8⟩ = .ok (.p2align 13 8) := by decide
theorem test_decode_p2alignd : decode ⟨0x00000003#32, 13, 8⟩ = .ok (.p2alignd 13 8) := by decide
theorem test_decode_log2 : decode ⟨0x00000004#32, 32, 0⟩ = .ok (.log2 32) := by decide
theorem test_decode_ruq : decode ⟨0x00000005#32, 70, 32⟩ = .ok (.ruq 70 32) := by decide
theorem test_decode_tany : decode ⟨0x00000006#32, 6, 1⟩ = .ok (.tany 6 1) := by decide
theorem test_decode_tall : decode ⟨0x00000007#32, 6, 7⟩ = .ok (.tall 6 7) := by decide
theorem test_decode_bfidx : decode ⟨0x00000008#32, 40, 0⟩ = .ok (.bfidx 40) := by decide
theorem test_decode_btst : decode ⟨0x00001009#32, 33, 0⟩ = .ok (.btst 1 33) := by decide
theorem test_decode_bset : decode ⟨0x0000010A#32, 33, 0⟩ = .ok (.bset 1 33) := by decide
theorem test_decode_bclr : decode ⟨0x0000010B#32, 33, 0⟩ = .ok (.bclr 1 33) := by decide
theorem test_decode_band : decode ⟨0x0001020C#32, 0, 0⟩ = .ok (.band 2 0 1) := by decide
theorem test_decode_bxor : decode ⟨0x0002110D#32, 0, 0⟩ = .ok (.bxor 1 1 2) := by decide
theorem test_decode_scanf : decode ⟨0x0000100E#32, 9, 0⟩ = .ok (.scanf 1 9) := by decide
theorem test_decode_rdw : decode ⟨0x0000200F#32, 1, 0⟩ = .ok (.rdw 2 1) := by decide
theorem test_decode_wrw : decode ⟨0x00000310#32, 1, 0xDEADBEEF⟩ = .ok (.wrw 3 1 0xDEADBEEF) := by decide

/-- V60.1 to V60.4, V40.39, V43.16, V45.19, V46.5. -/
theorem test_decode_refuses :
    decode ⟨0x00000000#32, 0, 0⟩ = .error .reservedOpcode ∧ decode ⟨0x00000011#32, 0, 0⟩ = .error .reservedOpcode ∧
      decode ⟨0x000000FF#32, 0, 0⟩ = .error .reservedOpcode ∧ decode ⟨0x80000001#32, 0, 0⟩ = .error .unusedFieldSet ∧
      decode ⟨0x00000101#32, 4, 0⟩ = .error .unusedFieldSet ∧ decode ⟨0x0000100A#32, 0, 0⟩ = .error .unusedFieldSet ∧
      decode ⟨0x0000010E#32, 0, 0⟩ = .error .unusedFieldSet ∧ decode ⟨0x00001010#32, 0, 0⟩ = .error .unusedFieldSet := by
  decide

/-- No command word selects two rows: any two rows differ in a bit that both masks fix. -/
theorem test_opcode_rows_do_not_overlap :
    opcodeTable.Pairwise fun r r' => r.pattern &&& (r.mask &&& r'.mask) ≠ r'.pattern &&& (r.mask &&& r'.mask) := by
  decide

/-! ### Well-formedness: an ill-formed term for each check, refused -/

/-- Every operand of every instruction: `2^32` does not fit a 32-bit port. -/
theorem test_wellFormed_refuses_wide_operands :
    ([.ispow2 (2 ^ 32), .p2align (2 ^ 32) 8, .p2align 8 (2 ^ 32), .p2alignd (2 ^ 32) 8, .p2alignd 8 (2 ^ 32),
      .log2 (2 ^ 32), .ruq (2 ^ 32) 1, .ruq 1 (2 ^ 32), .tany (2 ^ 32) 0, .tany 0 (2 ^ 32), .tall (2 ^ 32) 0,
      .tall 0 (2 ^ 32), .bfidx (2 ^ 32), .btst 0 (2 ^ 32), .bset 0 (2 ^ 32), .bclr 0 (2 ^ 32), .scanf 0 (2 ^ 32),
      .rdw 0 (2 ^ 32), .wrw 0 (2 ^ 32) 0, .wrw 0 0 (2 ^ 32)] : List Instr).all
        (fun i => !i.wellFormed Config.reference) = true := by decide

theorem test_wellFormed_accepts :
    (Instr.wrw 15 0xFFFFFFFF 0xFFFFFFFF).wellFormed Config.reference = true ∧
      (Instr.band 15 15 15).wellFormed Config.reference = true := by decide

theorem test_command_wellFormed :
    (Command.mk 0#32 (2 ^ 32) 0).wellFormed Config.reference = false ∧
      (Command.mk 0#32 0 (2 ^ 32)).wellFormed Config.reference = false ∧
      (Command.mk 0#32 0xFFFFFFFF 0xFFFFFFFF).wellFormed Config.reference = true ∧
      (HostAction.command ⟨0#32, 2 ^ 32, 0⟩).wellFormed Config.reference = false ∧
      HostAction.reset.wellFormed Config.reference = true := by decide

/-- R6, each constraint violated alone: SCANW no power of two, SCANW below 8, W no multiple, W no power-of-two multiple,
N = 0, NB = 0, NB = 17, CAP one too many. -/
theorem test_configValid_refuses :
    ([⟨24, 1, 4, 24⟩, ⟨32, 2, 4, 4⟩, ⟨24, 2, 4, 16⟩, ⟨24, 2, 4, 8⟩, ⟨32, 0, 4, 32⟩, ⟨32, 2, 0, 32⟩, ⟨32, 2, 17, 32⟩,
      ⟨8, 32, 4, 8⟩] : List Config).all (fun c => !configValid c) = true := by decide

theorem test_configValid_accepts :
    ([⟨32, 2, 4, 32⟩, ⟨8, 31, 16, 8⟩, ⟨64, 4, 1, 8⟩] : List Config).all configValid = true := by decide

/-! ### One step -/

/-- A unit in the reference configuration with these four banks. -/
def unit (b0 b1 b2 b3 : List Nat) : State :=
  { cfg := Config.reference, bf := [b0, b1, b2, b3], fcause := 0#4, fcmd := 0#32, pending := [], response := none,
    resets := 0 }

/-- The banks of V43 and V44. -/
def demo : State := unit [0x0000000A, 0x00000001] [0xFF00FF00, 0x00FF00FF] [0xF0F0F0F0, 0x0000FFFF] [0xFFFFFFFF, 0xFFFFFFFF]

/-- The unit of P6: `W = 8`, `N = 3`, `NB = 4`. -/
def small : State :=
  { unit [0x00, 0x90, 0x81] [0, 0, 0] [1, 2, 3] [255, 255, 255] with cfg := { w := 8, n := 3, nb := 4, scanw := 8 } }

/-- The state after a step, and `s` itself where there is none. -/
def after (r : Result) (s : State) : State :=
  match r with
  | .next t => t
  | .fault _ => s
  | .refused _ => s

/-- The state after presenting this command to `s`. -/
def afterCommand (cmd : BitVec 32) (opa opb : Nat) (s : State) : State := after (step (presentCommand ⟨cmd, opa, opb⟩ s)) s

/-- What presenting this command to `s` answers on `RES0`, `RES1`, `FLAG`, `FAULT`. -/
def answer (cmd : BitVec 32) (opa opb : Nat) (s : State) : Option (Nat × Nat × Bool × BitVec 4) :=
  (afterCommand cmd opa opb s).response.map fun r => (r.res0, r.res1, r.flag, r.fault)

/-- S1: `ISPOW2 3`. -/
theorem test_ispow2_two_bits : answer 0x00000001#32 3 0 demo = some (0, 0, false, 0#4) := by decide
/-- V40.3: the top bit alone. -/
theorem test_ispow2_top_bit : answer 0x00000001#32 0x80000000 0 demo = some (0, 0, true, 0#4) := by decide
/-- S2: `P2ALIGN 13, 8`. -/
theorem test_p2align_up : answer 0x00000002#32 13 8 demo = some (16, 0, false, 0#4) := by decide
/-- V40.9: the answer would be `2^32`. -/
theorem test_p2align_overflow : answer 0x00000002#32 0xFFFFFFF9 8 demo = some (0, 0, false, 6#4) := by decide
/-- S2: `P2ALIGND 13, 8`. -/
theorem test_p2alignd_down : answer 0x00000003#32 13 8 demo = some (8, 0, false, 0#4) := by decide
/-- V40.18. -/
theorem test_p2alignd_not_pow2 : answer 0x00000003#32 5 3 demo = some (0, 0, false, 4#4) := by decide
/-- V40.27: the operand is unsigned. -/
theorem test_log2_top : answer 0x00000004#32 0x80000000 0 demo = some (31, 0, false, 0#4) := by decide
/-- V40.20. -/
theorem test_log2_zero : answer 0x00000004#32 0 0 demo = some (0, 0, false, 0#4) := by decide
/-- V40.35: no intermediate wraps. -/
theorem test_ruq_large : answer 0x00000005#32 0xFFFFFFFF 2 demo = some (0x80000000, 0, false, 0#4) := by decide
/-- V40.38. -/
theorem test_ruq_by_zero : answer 0x00000005#32 7 0 demo = some (0, 0, false, 5#4) := by decide
/-- S3. -/
theorem test_tany_none : answer 0x00000006#32 6 1 demo = some (0, 0, false, 0#4) := by decide
/-- V41.5: same operands as V41.4, other test. -/
theorem test_tany_some : answer 0x00000006#32 6 7 demo = some (0, 0, true, 0#4) := by decide
/-- V41.4: one tested bit is missing. -/
theorem test_tall_missing : answer 0x00000007#32 6 7 demo = some (0, 0, false, 0#4) := by decide
/-- V41.3: all of no bits. -/
theorem test_tall_empty : answer 0x00000007#32 0 0 demo = some (0, 0, true, 0#4) := by decide
/-- V42.4. -/
theorem test_bfidx : answer 0x00000008#32 40 0 demo = some (1, 0x100, false, 0#4) := by decide
/-- V42.6: `CAP` itself. -/
theorem test_bfidx_cap : answer 0x00000008#32 64 0 demo = some (0, 0, false, 3#4) := by decide
/-- V43.4. -/
theorem test_btst_second_word : answer 0x00000009#32 32 0 demo = some (0, 0, true, 0#4) := by decide
/-- V43.5. -/
theorem test_btst_clear_bit : answer 0x00000009#32 33 0 demo = some (0, 0, false, 0#4) := by decide
/-- V43.7. -/
theorem test_bset_top : (afterCommand 0x0000000A#32 63 0 demo).bf[0]? = some [0x0000000A, 0x80000001] := by decide
/-- V43.18: `BANK_RANGE` before `INDEX_RANGE`, and `FCMD` keeps the word. -/
theorem test_bset_bank_range :
    answer 0x0000040A#32 64 0 demo = some (0, 0, false, 2#4) ∧ (afterCommand 0x0000040A#32 64 0 demo).fcmd = 0x0000040A#32 := by
  decide
/-- V43.9, on the bank before V43.7. -/
theorem test_bclr : (afterCommand 0x0000000B#32 32 0 demo).bf[0]? = some [0x0000000A, 0] := by decide
/-- V43.14. -/
theorem test_bclr_range : answer 0x0000000B#32 0xFFFFFFFF 0 demo = some (0, 0, false, 3#4) := by decide
/-- V44.1: `BAND b2, b0, b1`. -/
theorem test_band :
    (afterCommand 0x0001020C#32 0 0 (unit [0xF0F0F0F0, 0x0000FFFF] [0xFF00FF00, 0x00FF00FF] [1, 2] [3, 4])).bf =
      [[0xF0F0F0F0, 0x0000FFFF], [0xFF00FF00, 0x00FF00FF], [0xF000F000, 0x000000FF], [3, 4]] := by decide
/-- V44.2: `BXOR b1, b1, b2`, the destination also a source. -/
theorem test_bxor_alias :
    (afterCommand 0x0002110D#32 0 0 (unit [1, 2] [0xFF00FF00, 0x00FF00FF] [0xF000F000, 0x000000FF] [3, 4])).bf[1]? =
      some [0x0F000F00, 0x00FF0000] := by decide
/-- V45.8: the cursor's own word has bits, all below the cursor. -/
theorem test_scanf_masks_below_cursor :
    answer 0x0000000E#32 31 0 (unit [0x7FFFFFFF, 2] [0, 0] [0, 0] [0, 0]) = some (33, 0, true, 0#4) := by decide
/-- P6 step 8: the cursor `CAP` is legal and finds nothing. -/
theorem test_scanf_at_cap : answer 0x0000000E#32 24 0 small = some (0, 0, false, 0#4) := by decide
/-- R180: `RDW b2, 1`. -/
theorem test_rdw : answer 0x0000200F#32 1 0 (unit [1, 2] [3, 4] [0xF000F000, 0x000000FF] [5, 6]) = some (0xFF, 0, false, 0#4) := by
  decide
/-- V46.3: the word index is compared with `N`. -/
theorem test_rdw_range : answer 0x0000000F#32 2 0 demo = some (0, 0, false, 3#4) := by decide
/-- V46.1. -/
theorem test_wrw :
    (afterCommand 0x00000310#32 1 0xDEADBEEF demo).bf[3]? = some [0xFFFFFFFF, 0xDEADBEEF] ∧
      answer 0x00000310#32 1 0xDEADBEEF demo = some (0, 0, false, 0#4) := by decide
/-- V46.4: a faulting WRW writes nothing. -/
theorem test_wrw_range :
    answer 0x00000010#32 2 7 demo = some (0, 0, false, 3#4) ∧ (afterCommand 0x00000010#32 2 7 demo).bf = demo.bf := by
  decide

/-- The unit of V60.5: faulted by `BSET b0, 64`. -/
def faulted : State := { demo with fcause := 3#4, fcmd := 0x0000000A#32 }

/-- V60.6 to V60.8: the faulted unit ignores legal and illegal commands. -/
theorem test_faulted_ignores :
    answer 0x00000009#32 1 0 faulted = some (0, 0, false, 3#4) ∧ (afterCommand 0x00000010#32 0 0 faulted).bf = demo.bf ∧
      (afterCommand 0x00000000#32 0 0 faulted).fcmd = 0x0000000A#32 ∧
      (afterCommand 0x00000000#32 0 0 faulted).fcause = 3#4 := by decide

/-- V60.10: RESET clears the fault registers. -/
theorem test_reset_clears_fault :
    (after (step { faulted with pending := [.reset] }) faulted).fcause = 0#4 ∧
      (after (step { faulted with pending := [.reset] }) faulted).fcmd = 0#32 := by decide

/-- V60.4: an illegal word is recorded in `FCMD`. -/
theorem test_illegal_word :
    answer 0x80000001#32 5 5 demo = some (0, 0, false, 1#4) ∧
      (afterCommand 0x80000001#32 5 5 demo).fcmd = 0x80000001#32 := by decide

/-- Every row's word, placed as the next command after reset, decodes and runs. -/
theorem test_words_run_after_reset :
    ([0x01, 0x02, 0x03, 0x04, 0x05, 0x06, 0x07, 0x08, 0x3009, 0x030A, 0x030B, 0x3210C, 0x3210D, 0x300E, 0x300F, 0x0310].all
      fun w => (decodeTableWord 32 w).isSome && match step (State.reset.withFetchWord 32 w) with
        | .next _ => true
        | .fault _ => false
        | .refused _ => false) = true := by decide

/-! ### Witnesses: for every statement with hypotheses, a concrete case that meets all of them, at the boundary values of its
clauses -/

/-- The unit of V60.5 with two further commands presented. -/
def queued : State :=
  { demo with pending := [.command ⟨0x0000020A#32, 63, 5⟩, .command ⟨0x0000000A#32, 64, 0⟩, .command ⟨0x00000010#32, 0, 0⟩] }

/-- `2^e` is not 6. -/
theorem six_is_no_power_of_two : ¬∃ e, 6 = 2 ^ e := by
  rintro ⟨e, he⟩
  have h : e < 3 := by
    by_contra hlt
    have := Nat.pow_le_pow_right (n := 2) (by decide) (Nat.not_lt.1 hlt)
    omega
  have : ∀ e, e < 3 → 6 ≠ 2 ^ e := by decide
  exact this e h he

/-- The ignored port holds 7. -/
theorem witness_EncodeInvertsDecode :
    decode ⟨0x0000010A#32, 33, 7⟩ = .ok (.bset 1 33) ∧ decode ⟨0x0002110D#32, 5, 7⟩ = .ok (.bxor 1 1 2) := by decide

/-- A word that selects a row, and one that selects none. -/
theorem witness_DecodeAcceptsExactlyTheTableRows :
    (∃ r ∈ opcodeTable, 0x000F000C#32 &&& r.mask = r.pattern) ∧ ¬(∃ r ∈ opcodeTable, 0x0010000C#32 &&& r.mask = r.pattern) ∧
      decode ⟨0x000F000C#32, 0, 0⟩ = .ok (.band 0 0 15) := by decide

/-- Both clauses, at the first reserved opcode above the map, at bit 20 and at a selector of each format. -/
theorem witness_IllegalCommandWordsFault :
    demo.fcause = 0#4 ∧ (Command.mk 0x11#32 0xFFFFFFFF 0xFFFFFFFF).wellFormed demo.cfg = true ∧
      [0x00, 0x11, 0xFF, 0x100001, 0x101, 0x109, 0x10009, 0x100A, 0x1000A, 0x10000C].all illegalWord = true ∧
      [0x01, 0x10, 0xF009, 0xF0A, 0xFFF0C].all (fun v => !illegalWord v) = true := by decide

theorem witness_ConfigurationConstraints :
    configValid ⟨8, 31, 16, 8⟩ = true ∧ 247 < (Config.mk 8 31 16 8).cap ∧
      configValid ({ demo with cfg := ⟨8, 32, 4, 8⟩ } : State).cfg = false := by decide

theorem witness_StepRunsTheDecodedCommand :
    configValid queued.cfg = true ∧ queued.pending = .command ⟨0x0000020A#32, 63, 5⟩ :: queued.pending.tail ∧
      (Command.mk 0x0000020A#32 63 5).wellFormed queued.cfg = true ∧
      decode ⟨0x0000020A#32, 63, 5⟩ = .ok (.bset 2 63) := by decide

theorem witness_IdleUnitChangesNothing : configValid demo.cfg = true ∧ demo.pending = [] := by decide

theorem witness_ResetClearsTheFaultRegisters :
    configValid faulted.cfg = true ∧
      ({ faulted with pending := [.reset, .command ⟨1#32, 1, 0⟩] } : State).pending = .reset :: [.command ⟨1#32, 1, 0⟩] := by
  decide

/-- The first and the last location, and the first beyond each bound. -/
theorem witness_StateAfterReset : (0 < 4 ∧ 0 < 2) ∧ (3 < 4 ∧ 1 < 2) ∧ ¬(4 < 4 ∧ 0 < 2) ∧ ¬(0 < 4 ∧ 2 < 2) := by decide

/-- A step that writes and a step that faults. -/
theorem witness_StepKeepsTheInvariant :
    queued.Inv ∧ step queued = .next (after (step queued) queued) ∧ (after (step queued) queued).bf ≠ queued.bf :=
  ⟨by decide, rfl, by decide⟩

theorem witness_StepIsTotal : queued.Inv := by decide

theorem witness_StepKeepsTheConfiguration : step queued = .next (after (step queued) queued) := rfl

/-- A run with no reset that faults on its second command, and a faulted start. -/
theorem witness_RunsTerminateAndFaultsStick :
    queued.Inv ∧ (∀ a ∈ queued.pending, a ≠ .reset) ∧
      ({ queued with fcause := 3#4, fcmd := 0x0000000A#32 } : State).Inv ∧
      ({ queued with fcause := 3#4, fcmd := 0x0000000A#32 } : State).fcause ≠ 0#4 ∧
      core.run 1 queued = .next (after (step queued) queued) := ⟨by decide, by decide, by decide, by decide, rfl⟩

/-- A command for each of the six causes, and one for none. -/
theorem witness_FaultTableAndPriority :
    queued.Ready ∧ (Command.mk 0x00000002#32 0xFFFFFFF9 8).wellFormed queued.cfg = true ∧
      ([⟨0x00000011#32, 0, 0⟩, ⟨0x0000040A#32, 64, 0⟩, ⟨0x0000000E#32, 65, 0⟩, ⟨0x00000002#32, 0xFFFFFFFF, 6⟩,
        ⟨0x00000005#32, 7, 0⟩, ⟨0x00000002#32, 0xFFFFFFF9, 8⟩, ⟨0x0000000E#32, 64, 0⟩].map
          (faultCodeOf queued.cfg)) = [1#4, 2#4, 3#4, 4#4, 5#4, 6#4, 0#4] := by decide

/-- The first selector out of range, in each position; and a unit with 16 banks. -/
theorem witness_UsedSelectorOutOfRangeFaults :
    demo.fcause = 0#4 ∧ (∃ sel ∈ selectorsOf (.band 4 0 0), demo.cfg.nb ≤ sel.toNat) ∧
      (∃ sel ∈ selectorsOf (.band 0 4 0), demo.cfg.nb ≤ sel.toNat) ∧
      (∃ sel ∈ selectorsOf (.band 0 0 4), demo.cfg.nb ≤ sel.toNat) ∧
      ({ demo with cfg := ⟨32, 2, 16, 32⟩ } : State).cfg.nb = 16 := by decide

theorem witness_FaultEntryIsPrecise :
    demo.fcause = 0#4 ∧ issue ⟨0xA#32, 64, 0⟩ demo = .next (after (issue ⟨0xA#32, 64, 0⟩ demo) demo) ∧
      (after (issue ⟨0xA#32, 64, 0⟩ demo) demo).fcause ≠ 0#4 ∧
      issue ⟨0x11#32, 0, 0⟩ demo = .next (after (issue ⟨0x11#32, 0, 0⟩ demo) demo) ∧
      (after (issue ⟨0x11#32, 0, 0⟩ demo) demo).fcause ≠ 0#4 := ⟨by decide, rfl, by decide, rfl, by decide⟩

theorem witness_FaultedUnitIgnoresEveryCommand :
    faulted.fcause ≠ 0#4 ∧ (Command.mk 0x00000000#32 1 2).wellFormed faulted.cfg = true ∧
      (Command.mk 0x00000010#32 0 0xFFFFFFFF).wellFormed faulted.cfg = true := by decide

/-- Both disjuncts of the conclusion occur: a command leaves the unit faulted, RESET does not. -/
theorem witness_OnlyResetLeavesTheFaultedState :
    faulted.fcause ≠ 0#4 ∧ step (presentCommand ⟨1#32, 1, 0⟩ faulted) =
      .next (after (step (presentCommand ⟨1#32, 1, 0⟩ faulted)) faulted) := ⟨by decide, rfl⟩

/-- The record of V60.5, and a step from it. -/
theorem witness_StepKeepsTheFaultRecordTrue :
    causeRecordFits faulted.cfg faulted.fcause faulted.fcmd ∧ causeRecordFits demo.cfg demo.fcause demo.fcmd ∧
      step (presentCommand ⟨0x40A#32, 1, 0⟩ demo) = .next (after (step (presentCommand ⟨0x40A#32, 1, 0⟩ demo)) demo) :=
  ⟨⟨by decide, by decide⟩, rfl, rfl⟩

/-- Every clause: an empty rest of a bank (also with the cursor `CAP`), a set bit, a clear bit, the last word, an ignored
port. -/
theorem witness_WhatIsNotAFault :
    demo.Ready ∧ (0#4).toNat < demo.cfg.nb ∧ (3#4).toNat < demo.cfg.nb ∧ 33 ≤ demo.cfg.cap ∧
      (∀ j, 33 ≤ j → j < demo.cfg.cap → logicalBit (0#4).toNat j demo = false) ∧
      logicalBit (0#4).toNat 32 demo = true ∧ logicalBit (0#4).toNat 63 demo = false ∧ 63 < demo.cfg.cap ∧
      1 < demo.cfg.n ∧ decode ⟨0x00000009#32, 1, 0xFFFFFFFF⟩ = .ok (.btst 0 1) ∧
      (Command.mk 0x00000009#32 1 0xFFFFFFFF).wellFormed demo.cfg = true := by decide

theorem witness_OutputsShowTheFaultRegisters :
    queued.pending = .command ⟨0x0000020A#32, 63, 5⟩ :: queued.pending.tail ∧
      step queued = .next (after (step queued) queued) := ⟨by decide, rfl⟩

/-- A command that drives one port, one that drives two, one that drives none, and one that faults. -/
theorem witness_UndrivenPortsAreZero :
    exec (.bfidx 63) demo = .next (after (exec (.bfidx 63) demo) demo) ∧
      (after (exec (.bfidx 63) demo) demo).response = some ⟨1, 0x80000000, false, 0#4, 0#32⟩ ∧
      drivesFlag (.bfidx 63) = false ∧ drivesRes0 (.bset 0 0) = false ∧ drivesRes1 (.scanf 0 0) = false ∧
      (after (exec (.bfidx 64) demo) demo).fcause ≠ 0#4 := ⟨rfl, rfl, rfl, rfl, rfl, by decide⟩

theorem witness_IgnoredOperandsHaveNoEffect :
    (Command.mk 0x0001020C#32 0 0).wellFormed demo.cfg = true ∧
      (Command.mk 0x0001020C#32 5 0xFFFFFFFF).wellFormed demo.cfg = true ∧
      decode ⟨0x0001020C#32, 0, 0⟩ = .ok (.band 2 0 1) ∧ usesOpa (.band 2 0 1) = false ∧ usesOpb (.band 2 0 1) = false ∧
      usesOpa (.bset 1 33) = true ∧ usesOpb (.bset 1 33) = false := by decide

theorem witness_CommandsWriteOnlyTheirFootprint :
    exec (.bset 0 63) demo = .next (after (exec (.bset 0 63) demo) demo) ∧
      memRead 0 1 (after (exec (.bset 0 63) demo) demo) ≠ memRead 0 1 demo := ⟨rfl, by decide⟩

/-- SCANF from 0 reads word 0 only: word 1 of its bank may differ. -/
theorem witness_FootprintOfEveryCommand :
    demo.Inv ∧ Memory.wf demo.cfg [[0x0000000A, 7], [1, 2], [3, 4], [5, 6]] = true ∧
      (∀ b k, readsWord demo (.scanf 0 0) b k →
        memRead b k { demo with bf := [[0x0000000A, 7], [1, 2], [3, 4], [5, 6]] } = memRead b k demo) ∧
      exec (.scanf 0 0) demo = .next (after (exec (.scanf 0 0) demo) demo) := by
  refine ⟨by decide, by decide, ?_, rfl⟩
  rintro b k ⟨rfl, -, hk, hno⟩
  have h2 : k < 2 := hk
  match k, h2 with
  | 0, _ => rfl
  | 1, _ => exact absurd (hno 1 (by decide) (by decide)) (by decide)

/-- Bank 0 against bank 3. -/
theorem witness_CommandsOnDisjointBanksCommute :
    demo.Ready ∧ (∀ a ∈ selectorsOf (.bset 0 63), ∀ b ∈ selectorsOf (.bclr 3 0), a ≠ b) ∧
      exec (.bset 0 63) demo = .next (after (exec (.bset 0 63) demo) demo) ∧
      exec (.bclr 3 0) (after (exec (.bset 0 63) demo) demo) =
        .next (after (exec (.bclr 3 0) (after (exec (.bset 0 63) demo) demo)) demo) ∧
      (after (exec (.bclr 3 0) (after (exec (.bset 0 63) demo) demo)) demo).fcause = 0#4 :=
  ⟨by decide, by decide, rfl, rfl, by decide⟩

/-- The unit of P6: the hypotheses of every statement about an unfaulted unit, on a width that is not the reference one. -/
theorem witness_ready_small : small.Ready ∧ small.fcause = 0#4 ∧ Memory.wf small.cfg small.bf = true := by decide

theorem witness_ready_demo : demo.Ready ∧ demo.fcause = 0#4 ∧ Memory.wf demo.cfg demo.bf = true := by decide

/-- The hypotheses of `unusedBitsFault`, for each of the four formats: the highest unused bit and the lowest. -/
theorem witness_unusedBitsFault :
    demo.fcause = 0#4 ∧ ([(0x80000001, 0x01, 0xFFFFFF00), (0x00000108, 0x08, 0xFFFFFF00), (0x80000009, 0x09, 0xFFFF0F00),
      (0x0000010F, 0x0F, 0xFFFF0F00), (0x8000000A, 0x0A, 0xFFFFF000), (0x00001010, 0x10, 0xFFFFF000),
      (0x8000000C, 0x0C, 0xFFF00000), (0x0010000D, 0x0D, 0xFFF00000)] : List (BitVec 32 × BitVec 8 × BitVec 32)).all (fun x =>
        (Command.mk x.1 0xFFFFFFFF 0).wellFormed demo.cfg && x.1.extractLsb' 0 8 == x.2.1 && x.1 &&& x.2.2 != 0#32) = true := by
  decide

theorem witness_Ispow2Result : demo.fcause = 0#4 ∧ demo.cfg.fits 0xFFFFFFFF ∧ small.fcause = 0#4 ∧ small.cfg.fits 128 := by decide

/-- The three clauses, the last two at the values where they meet. -/
theorem witness_P2alignResult :
    demo.fcause = 0#4 ∧ demo.cfg.fits 0xFFFFFFFF ∧ (demo.cfg.fits 6 ∧ ¬∃ e, 6 = 2 ^ e) ∧
      ((∃ e, 8 = 2 ^ e) ∧ 2 ^ demo.cfg.w - 8 < 0xFFFFFFF9) ∧ ((∃ e, 8 = 2 ^ e) ∧ 0xFFFFFFF8 ≤ 2 ^ demo.cfg.w - 8) :=
  ⟨by decide, by decide, ⟨by decide, six_is_no_power_of_two⟩, ⟨⟨3, rfl⟩, by decide⟩, ⟨⟨3, rfl⟩, by decide⟩⟩

theorem witness_P2aligndResult :
    demo.fcause = 0#4 ∧ demo.cfg.fits 0xFFFFFFFF ∧ (demo.cfg.fits 6 ∧ ¬∃ e, 6 = 2 ^ e) ∧
      demo.cfg.fits 0x80000000 ∧ ∃ e, 0x80000000 = 2 ^ e :=
  ⟨by decide, by decide, ⟨by decide, six_is_no_power_of_two⟩, by decide, 31, rfl⟩

theorem witness_Log2Result :
    demo.fcause = 0#4 ∧ configValid demo.cfg = true ∧ demo.cfg.fits 0 ∧ demo.cfg.fits 0xFFFFFFFF ∧ 0 < 0xFFFFFFFF := by decide

theorem witness_RuqResult : demo.fcause = 0#4 ∧ 0 = 0 ∧ 0 < 1 := by decide

/-- `i = 2^W - W` is the last that P2ALIGN aligns to `W`. -/
theorem witness_HelperIdentitiesAtTheWordWidth :
    demo.Ready ∧ demo.cfg.fits 0xFFFFFFE0 ∧ 0xFFFFFFE0 ≤ 2 ^ demo.cfg.w - demo.cfg.w ∧ small.Ready ∧ small.cfg.fits 255 := by
  decide

theorem witness_TanyResult : demo.fcause = 0#4 ∧ demo.cfg.fits 0x80000000 ∧ demo.cfg.fits 0xFFFFFFFF := by decide

theorem witness_TallResult : demo.fcause = 0#4 ∧ demo.cfg.fits 0x12345678 ∧ demo.cfg.fits 0xFFFFFFFF := by decide

theorem witness_BtstMirrorsTheFlagTests :
    demo.Ready ∧ (0#4).toNat < demo.cfg.nb ∧ 63 < demo.cfg.cap ∧ memRead (0#4).toNat (63 / demo.cfg.w) demo = some 1 := by
  decide

/-- Both clauses, at `CAP - 1` and at `CAP`. -/
theorem witness_BfidxResult :
    demo.fcause = 0#4 ∧ 63 < demo.cfg.n * demo.cfg.w ∧ demo.cfg.n * demo.cfg.w ≤ 64 := by decide

/-- Below, at and above `CAP`; two bits of one word; a word that exists. -/
theorem witness_IndexMapProperties :
    configValid demo.cfg = true ∧ 63 < demo.cfg.cap ∧ 64 = demo.cfg.cap ∧ demo.cfg.cap < 65 ∧
      (idx demo.cfg.w 32).1 = (idx demo.cfg.w 63).1 ∧ memRead 0 (idx demo.cfg.w 63).1 demo = some 1 := by decide

/-- Every clause of BTST, BSET and BCLR: the last bank and bit, the first bank and the first bit out of range. -/
theorem witness_BtstResult :
    demo.fcause = 0#4 ∧ Memory.wf demo.cfg demo.bf = true ∧ (3#4).toNat < demo.cfg.nb ∧ demo.cfg.nb ≤ (4#4).toNat ∧
      63 < demo.cfg.cap ∧ demo.cfg.cap ≤ 64 := by decide

theorem witness_BsetResult :
    small.fcause = 0#4 ∧ Memory.wf small.cfg small.bf = true ∧ (3#4).toNat < small.cfg.nb ∧ small.cfg.nb ≤ (4#4).toNat ∧
      23 < small.cfg.cap ∧ small.cfg.cap ≤ 24 := by decide

theorem witness_BclrResult :
    small.fcause = 0#4 ∧ Memory.wf small.cfg small.bf = true ∧ (0#4).toNat < small.cfg.nb ∧ small.cfg.nb ≤ (15#4).toNat ∧
      0 < small.cfg.cap ∧ small.cfg.cap ≤ 255 := by decide

/-- Another bit of the same bank, and the same bit of another bank. -/
theorem witness_BitMutationLaws :
    demo.Ready ∧ (1#4).toNat < demo.cfg.nb ∧ 33 < demo.cfg.cap ∧
      (1 < demo.cfg.nb ∧ 32 < demo.cfg.cap ∧ (1 ≠ (1#4).toNat ∨ 32 ≠ 33)) ∧
      (3 < demo.cfg.nb ∧ 33 < demo.cfg.cap ∧ (3 ≠ (1#4).toNat ∨ 33 ≠ 33)) := by decide

/-- All selectors the last bank, and each selector in turn the first that does not exist. -/
theorem witness_BandResult :
    demo.fcause = 0#4 ∧ Memory.wf demo.cfg demo.bf = true ∧ (3#4).toNat < demo.cfg.nb ∧ 1 < demo.cfg.n ∧
      demo.cfg.n ≤ 2 ∧ (0 ≠ (3#4).toNat) ∧ demo.cfg.nb ≤ (4#4).toNat := by decide

theorem witness_BxorResult :
    small.fcause = 0#4 ∧ Memory.wf small.cfg small.bf = true ∧ (3#4).toNat < small.cfg.nb ∧ 2 < small.cfg.n ∧
      small.cfg.n ≤ 3 ∧ (0 ≠ (3#4).toNat) ∧ small.cfg.nb ≤ (4#4).toNat := by decide

/-- The destination is one of the sources. -/
theorem witness_CombineActsOnLogicalBits :
    demo.Ready ∧ (1#4).toNat < demo.cfg.nb ∧ (2#4).toNat < demo.cfg.nb ∧ 63 < demo.cfg.cap ∧
      exec (.band 1 1 2) demo = .next (after (exec (.band 1 1 2) demo) demo) ∧
      exec (.bxor 1 1 2) demo = .next (after (exec (.bxor 1 1 2) demo) demo) :=
  ⟨by decide, by decide, by decide, by decide, rfl, rfl⟩

/-- Bank 3 is all ones. -/
theorem witness_CombineLaws :
    demo.Ready ∧ (0#4).toNat < demo.cfg.nb ∧ (3#4).toNat < demo.cfg.nb ∧
      (∀ k, k < demo.cfg.n → memRead (3#4).toNat k demo = some (2 ^ demo.cfg.w - 1)) := by decide

theorem witness_FfsFindsTheLeastSetBit : 0 < 2 ^ 8 ∧ 0x90 < 2 ^ 8 ∧ 0x90 ≠ 0 := by decide

/-- Every clause: nothing from 33 on and at `CAP`; the bit 32 found from 4; a cursor one above `CAP`; no such bank. -/
theorem witness_ScanfResult :
    demo.fcause = 0#4 ∧ Memory.wf demo.cfg demo.bf = true ∧ (0#4).toNat < demo.cfg.nb ∧
      (33 ≤ demo.cfg.cap ∧ ∀ j, 33 ≤ j → j < demo.cfg.cap → logicalBit (0#4).toNat j demo = false) ∧
      (64 ≤ demo.cfg.cap ∧ demo.cfg.cap < 65 ∧ demo.cfg.nb ≤ (4#4).toNat) ∧ logicalBit (0#4).toNat 32 demo = true ∧
      ∀ j, 4 ≤ j → j < 32 → logicalBit (0#4).toNat j demo = false := by decide

theorem witness_ScanfEqualsTheCarryChain :
    small.Ready ∧ (0#4).toNat < small.cfg.nb ∧ 24 ≤ small.cfg.cap ∧ 3 ≤ small.cfg.cap := by decide

/-- Four lanes. -/
theorem witness_NativeScanWidthIsUnobservable :
    configValid ({ demo with cfg := ⟨32, 2, 4, 8⟩ } : State).cfg = true ∧
      ({ demo with cfg := ⟨32, 2, 4, 8⟩ } : State).cfg.fits 0x00800000 := by decide

/-- The bank of P6, whose last bit is set, and an empty one. -/
theorem witness_EnumerationReportsEverySetBitOnce :
    small.Ready ∧ (0#4).toNat < small.cfg.nb ∧ setBits small (0#4).toNat = [12, 15, 16, 23] ∧ setBits small (1#4).toNat = [] := by
  decide

/-- Other commands that write other banks, or read the one scanned. -/
def between : List (List Instr) := [[.wrw 1 0 255], [.band 2 0 0, .bset 1 23], [], [.rdw 0 2], [.ruq 1 1]]

/-- They meet the hypotheses, and the loop around them reports the bits of P6. -/
theorem witness_EnumerationSurvivesOtherCommands :
    small.Ready ∧ (0#4).toNat < small.cfg.nb ∧
      between.length = (setBits small (0#4).toNat).length + 1 ∧
      (∀ is ∈ between, ∀ i ∈ is, i.wellFormed small.cfg = true ∧ ∀ k, ¬writesWord small.cfg i (0#4).toNat k) ∧
      enumerateAmid 0 between 0 small = some ([12, 15, 16, 23], true) := by
  refine ⟨by decide, by decide, by decide, ?_, by decide⟩
  intro is his i hi
  simp only [between, List.mem_cons, List.not_mem_nil, or_false] at his
  rcases his with rfl | rfl | rfl | rfl | rfl <;> simp only [List.mem_cons, List.not_mem_nil, or_false] at hi
  · subst hi; exact ⟨by decide, fun k h => absurd h.1 (by decide)⟩
  · rcases hi with rfl | rfl <;> exact ⟨by decide, fun k h => absurd h.1 (by decide)⟩
  · subst hi; exact ⟨by decide, fun k h => h⟩
  · subst hi; exact ⟨by decide, fun k h => h⟩

/-- Every clause of RDW and WRW: the last word, the first that does not exist, the first bank that does not exist. -/
theorem witness_RdwResult :
    demo.fcause = 0#4 ∧ Memory.wf demo.cfg demo.bf = true ∧ (3#4).toNat < demo.cfg.nb ∧ 1 < demo.cfg.n ∧
      demo.cfg.n ≤ 2 ∧ demo.cfg.nb ≤ (4#4).toNat := by decide

theorem witness_WrwResult :
    small.fcause = 0#4 ∧ Memory.wf small.cfg small.bf = true ∧ (3#4).toNat < small.cfg.nb ∧ 2 < small.cfg.n ∧
      small.cfg.n ≤ 3 ∧ small.cfg.nb ≤ (4#4).toNat := by decide

theorem witness_ReadAfterWrite :
    demo.Ready ∧ (3#4).toNat < demo.cfg.nb ∧ 1 < demo.cfg.n ∧ demo.cfg.fits 0xDEADBEEF ∧ 31 < demo.cfg.w := by decide

theorem witness_WritingEveryWordInitialisesABank :
    small.Ready ∧ (1#4).toNat < small.cfg.nb ∧ [0x00, 0x90, 0x81].length = small.cfg.n ∧
      ∀ x ∈ [0x00, 0x90, 0x81], small.cfg.fits x := by decide

end Sys2Proof.Tests
end

/-! SUPPORT. What every step keeps: the ports' bound on results, the store's canonical form, the machine's invariant, the
parameters and the host's list. -/

namespace Sys2Proof.Machine

/-! ### The parameters (R6) -/

/-- A power of two is at least 8 exactly when its exponent is at least 3 (R6 a). -/
theorem exists_two_pow_and_eight_le_iff {v : Nat} : (∃ e, v = 2 ^ e) ∧ 8 ≤ v ↔ ∃ e, 3 ≤ e ∧ v = 2 ^ e := by
  have hexp : ∀ e, 8 ≤ 2 ^ e ↔ 3 ≤ e := fun e => Nat.pow_le_pow_iff_right (a := 2) (n := 3) (by decide)
  constructor
  · rintro ⟨⟨e, rfl⟩, h8⟩
    exact ⟨e, (hexp e).1 h8, rfl⟩
  · rintro ⟨e, h3, rfl⟩
    exact ⟨⟨e, rfl⟩, (hexp e).2 h3⟩

/-- The word width is a power of two: `SCANW` times one. -/
theorem configValid_width_two_pow {c : Config} (h : configValid c = true) : ∃ e, c.w = 2 ^ e := by
  obtain ⟨⟨e, he⟩, -, ⟨k, hk⟩, -⟩ := (configValid_iff c).1 h
  exact ⟨e + k, by rw [hk, he, pow_add]⟩

/-- `CAP <= 2^W - 1` makes every bit index, and that index + 1, an operand (R6 b). -/
theorem fits_of_lt_cap {c : Config} {j : Nat} (h : configValid c = true) (hj : j < c.cap) :
    c.fits j ∧ c.fits (j + 1) := by
  obtain ⟨-, -, -, -, -, -, hcap⟩ := (configValid_iff c).1 h
  have hj : j < c.n * c.w := hj
  have hpos := Nat.two_pow_pos c.w
  exact ⟨by omega, by omega⟩

/-- A configuration outside R6 is refused, whatever the host presents (U15). -/
theorem step_of_not_configValid {s : State} (h : configValid s.cfg = false) : step s = .refused .badConfiguration := by
  simp [step, serveHost, h]

/-! ### Words that fit -/

variable {c : Config} {s t u : State} {i : Instr} {body : Result}

theorem fits_zero (c : Config) : c.fits 0 := Nat.two_pow_pos c.w

theorem fits_of_le {x y : Nat} (h : x ≤ y) (hy : c.fits y) : c.fits x := lt_of_le_of_lt h hy

theorem fits_idx_snd (c : Config) (j : Nat) : c.fits (idx c.w j).2 := Nat.mod_lt _ (Nat.two_pow_pos c.w)

/-- No more than its operand: `2^e <= u` bounds `e` (R103). -/
theorem log2floor_le {w u : Nat} (hu : u < 2 ^ w) : log2floor w u ≤ u := by
  obtain ⟨hzero, hpos⟩ := log2floor_spec hu
  rcases Nat.eq_zero_or_pos u with h0 | h0
  · exact (hzero h0).trans_le (Nat.zero_le u)
  · exact Nat.lt_two_pow_self.le.trans (hpos h0).1

/-- No more than the dividend, which is itself a bound on its quotient (R104). -/
theorem roundUpQuotient_le {dividend divisor : Nat} (hd : divisor ≠ 0) :
    roundUpQuotient dividend divisor ≤ dividend :=
  (roundUpQuotient_spec (Nat.pos_of_ne_zero hd)).2 dividend (Nat.le_mul_of_pos_right _ (Nat.pos_of_ne_zero hd))

theorem ffs_le (w x : Nat) : ffs w x ≤ w := by
  unfold ffs
  split
  · exact Nat.zero_le w
  · rename_i p hp
    have := List.mem_range.1 (List.mem_of_find?_eq_some hp)
    omega

@[simp] theorem maskFirst_length (w bp : Nat) (xs : List Nat) : (maskFirst w bp xs).length = xs.length := by
  cases xs <;> rfl

/-- An index the scan reports lies in the words it scanned (R161). -/
theorem scanWords_lt {w : Nat} (hw : 0 < w) {xs : List Nat} {k j : Nat} (h : scanWords w k xs = some j) :
    j < (k + xs.length) * w := by
  induction xs generalizing k with
  | nil => cases h
  | cons x xs ih =>
    unfold scanWords at h
    split at h
    · cases h
      have hword : k * w + w ≤ (k + (xs.length + 1)) * w := by
        rw [← Nat.succ_mul]; exact Nat.mul_le_mul_right w (by omega)
      have := ffs_le w x
      rw [List.length_cons]
      omega
    · simpa [Nat.add_assoc, Nat.add_comm 1] using ih h

/-- The operands of a decoded command are those on the ports (R67). -/
theorem assemble_wellFormed {m : Command} (h : assemble m = some i) (hm : m.wellFormed c = true) :
    i.wellFormed c = true := by
  obtain ⟨hopa, hopb⟩ : c.fits m.opa ∧ c.fits m.opb := by simpa [Command.wellFormed] using hm
  unfold assemble at h
  split at h <;> cases h <;> simp [Instr.wellFormed, hopa, hopb]

theorem decode_wellFormed {m : Command} (h : decode m = .ok i) (hm : m.wellFormed c = true) :
    i.wellFormed c = true := by
  unfold decode at h
  split at h
  · cases h
  · rename_i j hj
    split at h
    · cases h; exact assemble_wellFormed hj hm
    · cases h

/-! ### Results fit the ports (R28, R105) -/

/-- Every response this outcome answers carries results that fit the ports. -/
def ResultsFit (c : Config) (res : Result) : Prop :=
  ∀ t, res = .next t → ∀ r ∈ t.response, c.fits r.res0 ∧ c.fits r.res1

namespace ResultsFit

theorem complete {r0 r1 : Nat} {f : Bool} (h0 : c.fits r0) (h1 : c.fits r1) :
    ResultsFit c (.next (complete r0 r1 f s)) := by
  rintro _ ⟨⟩ r hr
  cases hr
  exact ⟨h0, h1⟩

theorem noResults {f : Bool} : ResultsFit c (.next (Machine.complete 0 0 f s)) := complete (fits_zero c) (fits_zero c)

theorem faultOf {cause : Cause} : ResultsFit c (faultOf cause i s) := noResults

theorem guarded (h : ResultsFit c body) : ResultsFit c (guarded i s body) := by
  rcases guarded_cases i s body with ⟨-, he⟩ | ⟨-, -, he⟩ | ⟨-, -, he⟩ <;> rw [he]
  · exact noResults
  · exact noResults
  · exact h

theorem ite {p : Prop} [Decidable p] {a b : Result} (ha : p → ResultsFit c a) (hb : ¬p → ResultsFit c b) :
    ResultsFit c (if p then a else b) := by
  split
  · exact ha ‹_›
  · exact hb ‹_›

theorem orFault {α : Type} {r : Option α} {f : α → Result} (h : ∀ a, r = some a → ResultsFit c (f a)) :
    ResultsFit c (orFault r f) := fun t ht =>
  let ⟨a, ha, hf⟩ := orFault_next_iff.1 ht
  h a ha t hf

theorem modifyBit {f : Nat → Nat → Nat} {rd : BankSel} {j : Nat} : ResultsFit c (modifyBit f rd j s) :=
  orFault fun _ _ => orFault fun _ _ => noResults

theorem combineBanks {op : Nat → Nat → Nat} {rd ra rb : BankSel} : ResultsFit c (combineBanks op rd ra rb s) :=
  orFault fun _ _ => noResults

end ResultsFit

/-- SCANF reports an index below `CAP`, or 0. -/
theorem execScanf_resultsFit (hcfg : configValid s.cfg = true) (ra : BankSel) (cursor : Nat) :
    ResultsFit s.cfg (execScanf ra cursor s) := by
  have hw : 0 < s.cfg.w := by have := configValid_width hcfg; omega
  refine .guarded (.ite (fun _ => .faultOf) fun hle => .orFault fun words hwords => .complete ?_ (fits_zero _))
  cases hfound : scanWords s.cfg.w (cursor / s.cfg.w) (maskFirst s.cfg.w (cursor % s.cfg.w) words) with
  | none => exact fits_zero _
  | some j =>
    have hcursor : cursor / s.cfg.w ≤ s.cfg.n := Nat.div_le_of_le_mul (Nat.mul_comm s.cfg.n _ ▸ not_lt.1 hle)
    have hj := scanWords_lt hw hfound
    rw [maskFirst_length, (memReadFrom_spec hwords).1, Nat.add_sub_of_le hcursor] at hj
    exact (fits_of_lt_cap hcfg hj).1

/-- R105 and its like for all sixteen commands: operands and words that fit give results that fit. -/
theorem exec_resultsFit (hcfg : configValid s.cfg = true) (hwf : Memory.wf s.cfg s.bf = true)
    (hi : i.wellFormed s.cfg = true) : ResultsFit s.cfg (exec i s) := by
  cases i with
  | ispow2 | tany | tall => exact .guarded .noResults
  | p2align =>
    exact .guarded (.ite (fun _ => .ite (fun _ => .faultOf) fun h => .complete (not_le.1 h) (fits_zero _))
      fun _ => .faultOf)
  | p2alignd value alignment =>
    obtain ⟨hv, -⟩ : s.cfg.fits value ∧ s.cfg.fits alignment := by simpa [Instr.wellFormed] using hi
    exact .guarded (.ite (fun _ => .complete (fits_of_le (Nat.sub_le _ _) hv) (fits_zero _)) fun _ => .faultOf)
  | log2 u =>
    have hu : s.cfg.fits u := by simpa [Instr.wellFormed] using hi
    exact .guarded (.complete (fits_of_le (log2floor_le hu) hu) (fits_zero _))
  | ruq dividend divisor =>
    obtain ⟨hd, -⟩ : s.cfg.fits dividend ∧ s.cfg.fits divisor := by simpa [Instr.wellFormed] using hi
    exact .guarded (.ite (fun _ => .faultOf) fun h0 => .complete (fits_of_le (roundUpQuotient_le h0) hd) (fits_zero _))
  | bfidx j =>
    have hj : s.cfg.fits j := by simpa [Instr.wellFormed] using hi
    exact .guarded (.ite (fun _ => .faultOf) fun _ => .complete (fits_of_le (Nat.div_le_self _ _) hj) (fits_idx_snd _ _))
  | btst => exact .guarded (.ite (fun _ => .faultOf) fun _ => .orFault fun _ _ => .noResults)
  | bset | bclr => exact .guarded (.ite (fun _ => .faultOf) fun _ => .modifyBit)
  | band | bxor => exact .guarded .combineBanks
  | scanf ra cursor => exact execScanf_resultsFit hcfg ra cursor
  | rdw =>
    exact .guarded (.ite (fun _ => .faultOf) fun _ => .orFault fun _ hx => .complete (memRead_fits hwf hx) (fits_zero _))
  | wrw => exact .guarded (.ite (fun _ => .faultOf) fun _ => .orFault fun _ _ => .noResults)

/-! ### The store keeps its form (R21) -/

/-- What a command writes fits the word. -/
theorem StoreEffect.keeps_wf (h : StoreEffect s i u) (hwf : Memory.wf s.cfg s.bf = true)
    (hi : i.wellFormed s.cfg = true) : Memory.wf s.cfg u.bf = true := by
  cases h with
  | none => exact hwf
  | bset _ hx h => exact memWrite_keeps_wf h hwf (Nat.or_lt_two_pow (memRead_fits hwf hx) (fits_idx_snd _ _))
  | bclr _ hx h => exact memWrite_keeps_wf h hwf (fits_of_le Nat.and_le_left (memRead_fits hwf hx))
  | band h => exact combineFrom_keeps_wf (fun _ _ hx _ => fits_of_le Nat.and_le_left hx) h rfl hwf
  | bxor h => exact combineFrom_keeps_wf (fun _ _ hx hy => Nat.xor_lt_two_pow hx hy) h rfl hwf
  | @wrw _ k data _ _ h =>
    obtain ⟨-, hdata⟩ : s.cfg.fits k ∧ s.cfg.fits data := by simpa [Instr.wellFormed] using hi
    exact memWrite_keeps_wf h hwf hdata

/-! ### Each update of the state keeps the invariant -/

namespace State.Inv

theorem complete {r0 r1 : Nat} {f : Bool} (hs : s.Inv) (h0 : s.cfg.fits r0) (h1 : s.cfg.fits r1) :
    (complete r0 r1 f s).Inv := by
  obtain ⟨hcfg, hwf, hcause, hcmd, -, hpend⟩ := hs
  refine ⟨hcfg, hwf, hcause, hcmd, ?_, hpend⟩
  rintro r ⟨⟩
  exact ⟨h0, h1, rfl, rfl⟩

theorem ignoreCommand (hs : s.Inv) : (ignoreCommand s).Inv := hs.complete (fits_zero _) (fits_zero _)

theorem raiseFault {cause : Cause} {cmd : BitVec 32} (hs : s.Inv) : (raiseFault cause cmd s).Inv := by
  obtain ⟨hcfg, hwf, -, -, -, hpend⟩ := hs
  obtain ⟨hne, -, hle⟩ := causeCode_range cause
  refine ⟨hcfg, hwf, hle, fun h0 => absurd h0 hne, ?_, hpend⟩
  rintro r ⟨⟩
  exact ⟨fits_zero _, fits_zero _, rfl, rfl⟩

theorem resetUnit (hs : s.Inv) : (resetUnit s).Inv := by
  obtain ⟨hcfg, -, -, -, -, hpend⟩ := hs
  exact ⟨hcfg, freshStore_wf _ _, (by decide : 0#4 ≤ 6#4), fun _ => rfl, nofun, hpend⟩

theorem setStore {m : Memory} (hs : s.Inv) (hm : Memory.wf s.cfg m = true) : ({ s with bf := m } : State).Inv := by
  obtain ⟨hcfg, -, hrest⟩ := hs
  exact ⟨hcfg, hm, hrest⟩

theorem dropPending {a : HostAction} {rest : List HostAction} (hs : s.Inv) (hp : s.pending = a :: rest) :
    ({ s with pending := rest } : State).Inv := by
  obtain ⟨hcfg, hwf, hcause, hcmd, hresp, hpend⟩ := hs
  exact ⟨hcfg, hwf, hcause, hcmd, hresp, fun b hb => hpend b (hp ▸ List.mem_cons_of_mem a hb)⟩

end State.Inv

/-- Every command whose operands fit keeps the invariant, by the one inversion of `exec`. -/
theorem exec_keeps_inv (hs : s.Inv) (hi : i.wellFormed s.cfg = true) (h : exec i s = .next t) : t.Inv := by
  have ⟨hcfg, hwf, _⟩ := hs
  rcases exec_next_cases h with ⟨-, rfl⟩ | ⟨-, cause, -, rfl⟩ | ⟨-, -, u, r0, r1, f, heff, rfl⟩
  · exact hs.ignoreCommand
  · exact hs.raiseFault
  · obtain ⟨h0, h1⟩ := exec_resultsFit hcfg hwf hi _ h _ rfl
    have hu : u.Inv := heff.frame ▸ hs.setStore (heff.keeps_wf hwf hi)
    have hucfg : u.cfg = s.cfg := by rw [heff.frame]
    exact hu.complete (hucfg ▸ h0) (hucfg ▸ h1)

/-- So does every command presented, legal or not. -/
theorem issue_keeps_inv {m : Command} (hs : s.Inv) (hm : m.wellFormed s.cfg = true) (h : issue m s = .next t) :
    t.Inv := by
  rcases issue_next_cases h with ⟨i, hdec, hexec⟩ | ⟨-, ⟨-, rfl⟩ | ⟨-, rfl⟩⟩
  · exact exec_keeps_inv hs (decode_wellFormed hdec hm) hexec
  · exact hs.ignoreCommand
  · exact hs.raiseFault

/-- So does every interaction with the host. -/
theorem step_keeps_inv (hs : s.Inv) (h : step s = .next t) : t.Inv := by
  obtain ⟨-, ⟨-, rfl⟩ | ⟨rest, hp, rfl⟩ | ⟨m, rest, hp, hm, hissue⟩⟩ := serveHost_next_cases h
  · exact hs
  · exact (hs.dropPending hp).resetUnit
  · exact issue_keeps_inv (hs.dropPending hp) hm hissue

/-! ### The parameters and the host's list -/

/-- A command changes neither the parameters nor what the host will present. -/
theorem exec_keeps_cfg_pending (h : exec i s = .next t) : t.cfg = s.cfg ∧ t.pending = s.pending := by
  rcases exec_next_cases h with ⟨-, rfl⟩ | ⟨-, cause, -, rfl⟩ | ⟨-, -, u, r0, r1, f, heff, rfl⟩
  · exact ⟨rfl, rfl⟩
  · exact ⟨rfl, rfl⟩
  · rw [heff.frame]
    exact ⟨rfl, rfl⟩

theorem issue_keeps_cfg_pending {m : Command} (h : issue m s = .next t) : t.cfg = s.cfg ∧ t.pending = s.pending := by
  rcases issue_next_cases h with ⟨i, -, hexec⟩ | ⟨-, ⟨-, rfl⟩ | ⟨-, rfl⟩⟩
  · exact exec_keeps_cfg_pending hexec
  · exact ⟨rfl, rfl⟩
  · exact ⟨rfl, rfl⟩

/-- A step takes the head off the host's list and leaves the parameters. -/
theorem step_keeps_cfg_and_drops_head (h : step s = .next t) : t.cfg = s.cfg ∧ t.pending = s.pending.tail := by
  obtain ⟨-, ⟨hp, rfl⟩ | ⟨rest, hp, rfl⟩ | ⟨m, rest, hp, -, hissue⟩⟩ := serveHost_next_cases h
  · exact ⟨rfl, by rw [hp]; rfl⟩
  · exact ⟨rfl, by rw [hp]; rfl⟩
  · rw [hp]
    exact issue_keeps_cfg_pending hissue

/-! ### The statements of 00_scope.md -/

/-- Settles O12, interaction by interaction: an idle unit, RESET, and a command, whose results and writes fit `W` bits. -/
theorem stepKeepsTheInvariant : Obligations.StepKeepsTheInvariant := fun _ _ => step_keeps_inv

/-- Settles O6, from `configValid_iff` and the bound `CAP <= 2^W - 1`. -/
theorem configurationConstraints : Obligations.ConfigurationConstraints := by
  refine ⟨fun c => ⟨?_, fun h => ⟨configValid_width h, configValid_width_two_pow h, fun j => fits_of_lt_cap h⟩⟩,
    fun s => step_of_not_configValid⟩
  rw [configValid_iff, ← and_assoc, exists_two_pow_and_eight_le_iff]

/-- Settles O14: the inversions of `serveHost`, `issue` and `exec`, down to the frame of a store effect. -/
theorem stepKeepsTheConfiguration : Obligations.StepKeepsTheConfiguration := fun _ _ => step_keeps_cfg_and_drops_head

/-- Settles O11: the reference configuration meets R6, and a fresh store is in canonical form whatever it holds. -/
theorem resetMeetsTheInvariant : Obligations.ResetMeetsTheInvariant :=
  ⟨by decide, freshStore_wf _ _, by decide, fun _ => rfl, nofun, nofun⟩

end Sys2Proof.Machine

/-! SUPPORT. The state and its interface (10_state.md): the idle unit, the state after reset, the response every command
ends in, and what stands outside the unit, which no command reads. -/

namespace Sys2Proof.Machine

open Sys2Proof.Claims

section

variable {s t : State} {i : Instr} {body body' : Result} {r : Option Response} {p : List HostAction} {n : Nat}

/-! ### The idle unit and the state after reset (R22 d, R30) -/

/-- With nothing presented the unit is idle (R22 d, R209). -/
theorem step_of_idle (hcfg : configValid s.cfg = true) (hp : s.pending = []) : step s = .next s := by
  simp [step, serveHost, hcfg, hp]

/-- The store after reset is in canonical form, whatever it holds (R21, R30). -/
theorem reset_bf_wf : Memory.wf State.reset.cfg State.reset.bf = true := freshStore_wf _ _

/-- Outside a store in canonical form there is no word (R40). -/
theorem memRead_eq_none_of_wf {b k : Nat} (h : Memory.wf s.cfg s.bf = true) (hout : ¬(b < s.cfg.nb ∧ k < s.cfg.n)) :
    memRead b k s = none :=
  Option.not_isSome_iff_eq_none.1 (mt (memRead_isSome_iff h).1 hout)

/-! ### Every command ends in a response (R28) -/

/-- Whether it was ignored, faulted or ran: the last thing a presented command does is drive the ports. -/
theorem exec_next_eq_complete (h : exec i s = .next t) : ∃ r0 r1 f u, t = complete r0 r1 f u := by
  rcases exec_next_cases h with ⟨-, rfl⟩ | ⟨-, cause, -, rfl⟩ | ⟨-, -, u, r0, r1, f, -, rfl⟩
  · exact ⟨0, 0, false, s, rfl⟩
  · exact ⟨0, 0, false, _, rfl⟩
  · exact ⟨r0, r1, f, u, rfl⟩

theorem issue_next_eq_complete {c : Command} (h : issue c s = .next t) : ∃ r0 r1 f u, t = complete r0 r1 f u := by
  rcases issue_next_cases h with ⟨i, -, hexec⟩ | ⟨-, ⟨-, rfl⟩ | ⟨-, rfl⟩⟩
  · exact exec_next_eq_complete hexec
  · exact ⟨0, 0, false, s, rfl⟩
  · exact ⟨0, 0, false, _, rfl⟩

/-- A step that serves a command is that command on the rest of the host's list. -/
theorem issue_of_step_next {c : Command} {rest : List HostAction} (hp : s.pending = .command c :: rest)
    (h : step s = .next t) : issue c { s with pending := rest } = .next t := by
  obtain ⟨-, ⟨hp', -⟩ | ⟨_, hp', -⟩ | ⟨_, _, hp', -, hissue⟩⟩ := serveHost_next_cases h
  · exact absurd (hp.symm.trans hp') nofun
  · exact absurd (hp.symm.trans hp') nofun
  · cases hp.symm.trans hp'
    exact hissue

/-! ### What stands outside the unit: the last response, the host's list, the count of resets (R23, R25, R29) -/

/-- `s` with another list of the host and another count of resets. -/
def State.withHost (p : List HostAction) (n : Nat) (s : State) : State := { s with pending := p, resets := n }

/-- `s` with another last response beside another list of the host and another count of resets. -/
def State.withOutside (r : Option Response) (p : List HostAction) (n : Nat) (s : State) : State :=
  { s with response := r, pending := p, resets := n }

theorem memRead_withOutside {b k : Nat} : memRead b k (s.withOutside r p n) = memRead b k s := rfl

theorem memReadFrom_withOutside {b count k : Nat} :
    memReadFrom b (s.withOutside r p n) count k = memReadFrom b s count k := by
  induction count generalizing k with
  | zero => rfl
  | succ count ih => simp only [memReadFrom, memRead_withOutside, ih]

theorem memWrite_withOutside {b k v : Nat} :
    memWrite b k v (s.withOutside r p n) = (memWrite b k v s).map (State.withOutside r p n) := by
  simp only [memWrite, State.withOutside]
  cases s.bf[b]? with
  | none => rfl
  | some bank => by_cases hk : k < bank.length <;> simp [hk, State.withOutside]

/-- A sweep reads and writes the store alone, at every position. -/
theorem combineFrom_withOutside {op : Nat → Nat → Nat} {rd ra rb count k : Nat} :
    combineFrom op rd ra rb count k (s.withOutside r p n) =
      (combineFrom op rd ra rb count k s).map (State.withOutside r p n) := by
  induction count generalizing k s with
  | zero => rfl
  | succ count ih =>
    simp only [combineFrom, memRead_withOutside, memWrite_withOutside, Option.map_bind, Option.bind_map,
      Function.comp_def, ih]

/-- The first outcome is the second with the host's list `p` and the count `n` in its next state. -/
def SameUpToHost (p : List HostAction) (n : Nat) (a b : Result) : Prop := a = mapNext (State.withHost p n) b

namespace SameUpToHost

/-- Driving the ports overwrites the last response. -/
theorem complete {r0 r1 : Nat} {f : Bool} :
    SameUpToHost p n (.next (complete r0 r1 f (s.withOutside r p n))) (.next (Machine.complete r0 r1 f s)) := rfl

theorem faultOf {cause : Cause} : SameUpToHost p n (faultOf cause i (s.withOutside r p n)) (Machine.faultOf cause i s) :=
  rfl

theorem ite {q : Prop} [Decidable q] {a a' b b' : Result} (ha : SameUpToHost p n a' a) (hb : SameUpToHost p n b' b) :
    SameUpToHost p n (if q then a' else b') (if q then a else b) := by
  split
  · exact ha
  · exact hb

theorem guarded (h : SameUpToHost p n body' body) :
    SameUpToHost p n (guarded i (s.withOutside r p n) body') (Machine.guarded i s body) :=
  .ite (.ite h .faultOf) .complete

/-- An access that answers a word, or words, answers the same. -/
theorem orFault {α : Type} {x x' : Option α} {f f' : α → Result} (hx : x' = x)
    (h : ∀ a, SameUpToHost p n (f' a) (f a)) : SameUpToHost p n (orFault x' f') (Machine.orFault x f) := by
  subst hx
  cases x' with
  | none => rfl
  | some a => exact h a

/-- An access that answers a state goes on from the same state with the other fields. -/
theorem orFault_state {x x' : Option State} {f f' : State → Result} (hx : x' = x.map (State.withOutside r p n))
    (h : ∀ u, SameUpToHost p n (f' (u.withOutside r p n)) (f u)) :
    SameUpToHost p n (Machine.orFault x' f') (Machine.orFault x f) := by
  subst hx
  cases x with
  | none => rfl
  | some u => exact h u

theorem modifyBit {f : Nat → Nat → Nat} {rd : BankSel} {j : Nat} :
    SameUpToHost p n (modifyBit f rd j (s.withOutside r p n)) (Machine.modifyBit f rd j s) :=
  .orFault memRead_withOutside fun _ => .orFault_state memWrite_withOutside fun _ => .complete

theorem combineBanks {op : Nat → Nat → Nat} {rd ra rb : BankSel} :
    SameUpToHost p n (combineBanks op rd ra rb (s.withOutside r p n)) (Machine.combineBanks op rd ra rb s) :=
  .orFault_state combineFrom_withOutside fun _ => .complete

end SameUpToHost

/-- No command reads or changes what stands outside the unit, but for the response it drives. -/
theorem exec_withOutside : SameUpToHost p n (exec i (s.withOutside r p n)) (exec i s) := by
  cases i with
  | ispow2 | log2 | tany | tall => exact .guarded .complete
  | p2align => exact .guarded (.ite (.ite .faultOf .complete) .faultOf)
  | p2alignd => exact .guarded (.ite .complete .faultOf)
  | ruq | bfidx => exact .guarded (.ite .faultOf .complete)
  | btst | rdw => exact .guarded (.ite .faultOf (.orFault memRead_withOutside fun _ => .complete))
  | bset | bclr => exact .guarded (.ite .faultOf .modifyBit)
  | band | bxor => exact .guarded .combineBanks
  | scanf => exact .guarded (.ite .faultOf (.orFault memReadFrom_withOutside fun _ => .complete))
  | wrw => exact .guarded (.ite .faultOf (.orFault_state memWrite_withOutside fun _ => .complete))

end

/-! ### The statements of 10_state.md -/

/-- Settles O23: a step that serves a command ends in `complete`, which shows the registers of the state it leaves. -/
theorem outputsShowTheFaultRegisters : Obligations.OutputsShowTheFaultRegisters := by
  intro s t c rest hp h
  obtain ⟨r0, r1, f, u, rfl⟩ := issue_next_eq_complete (issue_of_step_next hp h)
  exact ⟨_, complete_response r0 r1 f u, rfl, rfl⟩

/-- Settles O26, operation by operation: the store's accesses, the guards and `complete` carry the other values through. -/
theorem noCommandReadsAnEarlierResponse : Obligations.NoCommandReadsAnEarlierResponse := fun _ _ _ _ _ =>
  exec_withOutside

/-- Settles O8: `serveHost` on an empty list. -/
theorem idleUnitChangesNothing : Obligations.IdleUnitChangesNothing := fun _ => step_of_idle

/-- Settles O10: the registers by definition, the store because a fresh one is in canonical form. -/
theorem stateAfterReset : Obligations.StateAfterReset :=
  ⟨rfl, rfl, rfl, rfl, rfl, fun _ _ =>
    ⟨fun ⟨hb, hk⟩ => memRead_of_wf reset_bf_wf hb hk, fun hout => memRead_eq_none_of_wf reset_bf_wf hout⟩⟩

end Sys2Proof.Machine

/-! SUPPORT. The store's footprint (20_memory.md R43, R44): the words a command may change, and that what it answers and
writes depends on the words it reads alone. -/

namespace Sys2Proof.Machine

open Sys2Proof.Claims

section

variable {s t u u' : State} {i : Instr} {m : Memory} {b k : Nat}

/-! ### Writes: the frame of each store operation, and of a command -/

theorem memWrite_frame {b' k' v : Nat} (h : memWrite b k v s = some t) (hout : ¬(b' = b ∧ k' = k)) :
    memRead b' k' t = memRead b' k' s := by
  obtain ⟨-, -, hread⟩ := memWrite_spec h
  rw [hread, if_neg hout]

/-- A write creates no location and removes none (R40). -/
theorem memWrite_keeps_locations {b' k' v : Nat} (h : memWrite b k v s = some t) :
    (memRead b' k' t).isSome = (memRead b' k' s).isSome := by
  obtain ⟨-, hsome, hread⟩ := memWrite_spec h
  by_cases hbk : b' = b ∧ k' = k
  · obtain ⟨rfl, rfl⟩ := hbk
    simp [hread, hsome]
  · rw [memWrite_frame h hbk]

/-- The whole sweep of BAND and BXOR touches the words of the written bank alone (R150, R151). -/
theorem combineFrom_frame {op : Nat → Nat → Nat} {rd ra rb count : Nat}
    (h : combineFrom op rd ra rb count 0 s = some t) (hout : ¬(b = rd ∧ k < count)) :
    memRead b k t = memRead b k s := by
  obtain ⟨-, -, hrest⟩ := combineFrom_spec h
  exact hrest b k (by omega)

theorem combineFrom_keeps_locations {op : Nat → Nat → Nat} {rd ra rb count j : Nat}
    (h : combineFrom op rd ra rb count j s = some t) : (memRead b k t).isSome = (memRead b k s).isSome := by
  induction count generalizing j s with
  | zero => cases h; rfl
  | succ count ih =>
    obtain ⟨x, -, h⟩ := Option.bind_eq_some_iff.1 h
    obtain ⟨y, -, h⟩ := Option.bind_eq_some_iff.1 h
    obtain ⟨u, hu, h⟩ := Option.bind_eq_some_iff.1 h
    rw [ih h, memWrite_keeps_locations hu]

/-- A store effect leaves every word outside its row's writes (R43). -/
theorem StoreEffect.keeps_unwritten (h : StoreEffect s i u) (hout : ¬writesWord s.cfg i b k) :
    memRead b k u = memRead b k s := by
  cases h with
  | none => rfl
  | bset _ _ h | bclr _ _ h | wrw _ h => exact memWrite_frame h hout
  | band h | bxor h => exact combineFrom_frame h hout

theorem StoreEffect.keeps_locations (h : StoreEffect s i u) : (memRead b k u).isSome = (memRead b k s).isSome := by
  cases h with
  | none => rfl
  | bset _ _ h | bclr _ _ h | wrw _ h => exact memWrite_keeps_locations h
  | band h | bxor h => exact combineFrom_keeps_locations h

/-- The memory frame of every command: a word is as before unless the command writes it and did not fault (R22 c, R43,
R203). -/
theorem exec_memory_frame (h : exec i s = .next t) (hout : ¬(writesWord s.cfg i b k ∧ t.fcause = 0#4)) :
    memRead b k t = memRead b k s := by
  rcases exec_next_cases h with ⟨-, rfl⟩ | ⟨-, cause, -, rfl⟩ | ⟨hf, -, u, r0, r1, f, heff, rfl⟩
  · rfl
  · rfl
  · have hu : u.fcause = 0#4 := by rw [heff.frame]; exact hf
    exact heff.keeps_unwritten fun hw => hout ⟨hw, hu⟩

/-- No command creates a location or removes one (R40, R53). -/
theorem exec_keeps_locations (h : exec i s = .next t) : (memRead b k t).isSome = (memRead b k s).isSome := by
  rcases exec_next_cases h with ⟨-, rfl⟩ | ⟨-, cause, -, rfl⟩ | ⟨-, -, u, r0, r1, f, heff, rfl⟩
  · rfl
  · rfl
  · exact heff.keeps_locations

/-! ### Reads: what the scan depends on -/

/-- The scan of R161 never looks beyond the first word that is not 0. -/
theorem scanWords_congr {w : Nat} {xs ys : List Nat}
    (h : ∀ q : Nat, (∀ r < q, xs[r]? = some 0) → xs[q]? = ys[q]?) : scanWords w k xs = scanWords w k ys := by
  induction xs generalizing k ys with
  | nil =>
    have hys : ys = [] := by simpa [eq_comm] using h 0 nofun
    rw [hys]
  | cons x xs ih =>
    have hhead : ys[0]? = some x := (h 0 nofun).symm
    obtain ⟨ys, rfl⟩ : ∃ ys', ys = x :: ys' := by
      cases ys with
      | nil => cases hhead
      | cons y ys => cases hhead; exact ⟨ys, rfl⟩
    by_cases hx : x = 0
    · have htail : ∀ q, (∀ r < q, xs[r]? = some 0) → xs[q]? = ys[q]? := fun q hq => h (q + 1) fun r hr => by
        cases r with
        | zero => rw [hx]; rfl
        | succ r => exact hq r (by omega)
      simp [scanWords, hx, ih htail]
    · simp [scanWords, hx]

/-- R164 masks word 0 of the list and no other. -/
theorem maskFirst_getElem? (w bp : Nat) (xs : List Nat) (q : Nat) : (maskFirst w bp xs)[q]? =
    xs[q]?.map fun x => if q = 0 then x &&& wordShl w (allOnes w) bp else x := by
  cases xs with
  | nil => rfl
  | cons x xs => cases q <;> simp [maskFirst]

/-- Words that are 0 once masked below the cursor `c` hold no 1 at or after `c` (R163, R164). -/
theorem logicalBit_eq_false_of_masked_zero {c count q j : Nat} {xs : List Nat} (hw : 0 < s.cfg.w)
    (hxs : memReadFrom b s count (c / s.cfg.w) = some xs)
    (hzero : ∀ r < q, (maskFirst s.cfg.w (c % s.cfg.w) xs)[r]? = some 0)
    (hcj : c ≤ j) (hj : j < (c / s.cfg.w + q) * s.cfg.w) : logicalBit b j s = false := by
  obtain ⟨hlen, hread⟩ := memReadFrom_spec hxs
  obtain ⟨r, hr⟩ := Nat.exists_eq_add_of_le (Nat.div_le_div_right (c := s.cfg.w) hcj)
  have hrq : r < q := by
    have := (Nat.div_lt_iff_lt_mul hw).2 hj
    omega
  have hmasked := hzero r hrq
  rw [maskFirst_getElem?] at hmasked
  obtain ⟨x, hx, hx0⟩ := Option.map_eq_some_iff.1 hmasked
  have hrc : r < count := hlen ▸ (List.getElem?_eq_some_iff.1 hx).1
  have hword : logicalBit b j s = x.testBit (j % s.cfg.w) := by rw [logicalBit, hr, hread r hrc, hx]; rfl
  rw [hword]
  split at hx0
  next hr0 =>
    have hpos : c % s.cfg.w ≤ j % s.cfg.w := by
      have hc := Nat.div_add_mod c s.cfg.w
      have hjm := Nat.div_add_mod j s.cfg.w
      rw [hr, hr0, Nat.add_zero] at hjm
      omega
    have hbit := congrArg (Nat.testBit · (j % s.cfg.w)) hx0
    simpa [Nat.testBit_and, testBit_maskBelow, Nat.mod_lt j hw, hpos] using hbit
  next => rw [hx0, Nat.zero_testBit]

/-! ### Two stores that agree on some words -/

/-- The two states differ in `BF` alone, and not in the words `P` names. -/
def AgreeOn (P : Nat → Nat → Prop) (s s' : State) : Prop :=
  s' = { s with bf := s'.bf } ∧ ∀ b k, P b k → memRead b k s' = memRead b k s

theorem AgreeOn.of_none {P : Nat → Nat → Prop} (hP : ∀ b k, ¬P b k) : AgreeOn P s { s with bf := m } :=
  ⟨rfl, fun b k h => absurd h (hP b k)⟩

/-- The store `m` has the locations of the store of `s` (R40). -/
abbrev SameLocations (s : State) (m : Memory) : Prop :=
  ∀ b k, (memRead b k { s with bf := m }).isSome = (memRead b k s).isSome

theorem SameLocations.of_wf (hs : Memory.wf s.cfg s.bf = true) (hm : Memory.wf s.cfg m = true) : SameLocations s m :=
  fun _ _ => Bool.eq_iff_iff.2 ((memRead_isSome_iff (s := { s with bf := m }) hm).trans (memRead_isSome_iff hs).symm)

section

variable (hloc : SameLocations s m)

include hloc

/-- A write succeeds in both stores, and the word it writes is then the same. -/
theorem memWrite_agree {v : Nat} (h : memWrite b k v s = some u) :
    ∃ u', memWrite b k v { s with bf := m } = some u' ∧ AgreeOn (fun b' k' => b' = b ∧ k' = k) u u' := by
  obtain ⟨hframe, hsome, hread⟩ := memWrite_spec h
  obtain ⟨u', hu'⟩ : ∃ u', memWrite b k v { s with bf := m } = some u' :=
    Option.isSome_iff_exists.1 (by rw [memWrite_isSome, hloc, hsome])
  obtain ⟨hframe', -, hread'⟩ := memWrite_spec hu'
  exact ⟨u', hu', by rw [hframe, hframe'], fun b' k' hbk => by rw [hread, hread', if_pos hbk, if_pos hbk]⟩

/-- A sweep over words read alike in both stores completes in both, and the words it writes are then the same. -/
theorem combineFrom_agree {op : Nat → Nat → Nat} {rd ra rb count : Nat}
    (hread : ∀ b k, (b = ra ∨ b = rb) ∧ k < count → memRead b k { s with bf := m } = memRead b k s)
    (h : combineFrom op rd ra rb count 0 s = some u) :
    ∃ u', combineFrom op rd ra rb count 0 { s with bf := m } = some u' ∧
      AgreeOn (fun b k => b = rd ∧ k < count) u u' := by
  obtain ⟨hframe, hswept, -⟩ := combineFrom_spec h
  obtain ⟨u', hu'⟩ : ∃ u', combineFrom op rd ra rb count 0 { s with bf := m } = some u' := by
    refine combineFrom_isSome fun j h0 hj => ?_
    obtain ⟨x, y, hx, hy, hxy⟩ := hswept j h0 hj
    have hd : (memRead rd j s).isSome = true := by rw [← combineFrom_keeps_locations h, hxy]; rfl
    simp [hloc, hx, hy, hd]
  obtain ⟨hframe', hswept', -⟩ := combineFrom_spec hu'
  refine ⟨u', hu', by rw [hframe, hframe'], ?_⟩
  rintro _ j ⟨rfl, hj⟩
  obtain ⟨x, y, hx, hy, hxy⟩ := hswept j (Nat.zero_le j) (by omega)
  obtain ⟨x', y', hx', hy', hxy'⟩ := hswept' j (Nat.zero_le j) (by omega)
  rw [hread _ _ ⟨.inl rfl, hj⟩, hx] at hx'
  rw [hread _ _ ⟨.inr rfl, hj⟩, hy] at hy'
  cases hx'
  cases hy'
  rw [hxy, hxy']

/-- A run of reads completes in both stores. -/
theorem memReadFrom_completes {count : Nat} {xs : List Nat} (h : memReadFrom b s count k = some xs) :
    ∃ ys, memReadFrom b { s with bf := m } count k = some ys := by
  obtain ⟨hlen, hread⟩ := memReadFrom_spec h
  refine memReadFrom_isSome fun j hkj hj => ?_
  obtain ⟨q, rfl⟩ := Nat.exists_eq_add_of_le hkj
  rw [hloc, hread q (by omega), List.getElem?_eq_getElem (by omega)]
  rfl

/-- SCANF finds the same bit in both stores when they agree up to the word in which it is found (R43). -/
theorem scan_agree {ra : BankSel} {c : Nat} {xs : List Nat} (hw : 0 < s.cfg.w)
    (hread : ∀ b k, readsWord s (.scanf ra c) b k → memRead b k { s with bf := m } = memRead b k s)
    (hxs : memReadFrom ra.toNat s (s.cfg.n - c / s.cfg.w) (c / s.cfg.w) = some xs) :
    ∃ ys, memReadFrom ra.toNat { s with bf := m } (s.cfg.n - c / s.cfg.w) (c / s.cfg.w) = some ys ∧
      scanWords s.cfg.w (c / s.cfg.w) (maskFirst s.cfg.w (c % s.cfg.w) ys) =
        scanWords s.cfg.w (c / s.cfg.w) (maskFirst s.cfg.w (c % s.cfg.w) xs) := by
  obtain ⟨ys, hys⟩ := memReadFrom_completes hloc hxs
  obtain ⟨hxlen, hx⟩ := memReadFrom_spec hxs
  obtain ⟨hylen, hy⟩ := memReadFrom_spec hys
  refine ⟨ys, hys, (scanWords_congr fun q hzero => ?_).symm⟩
  suffices xs[q]? = ys[q]? by rw [maskFirst_getElem?, maskFirst_getElem?, this]
  by_cases hq : q < s.cfg.n - c / s.cfg.w
  · have hreads : readsWord s (.scanf ra c) ra.toNat (c / s.cfg.w + q) :=
      ⟨rfl, Nat.le_add_right _ _, by omega, fun j => logicalBit_eq_false_of_masked_zero hw hxs hzero⟩
    rw [← hx q hq, ← hy q hq, hread _ _ hreads]
  · rw [List.getElem?_eq_none (by omega), List.getElem?_eq_none (by omega)]

end

/-! ### Outcomes that agree -/

/-- Where the first outcome is a next state, so is the second, and it differs from the first in `BF` alone; if the
command did not fault, not in the words `P` names. -/
def SameAnswer (P : Nat → Nat → Prop) (a a' : Result) : Prop :=
  ∀ t, a = .next t → ∃ t', a' = .next t' ∧ AgreeOn (fun b k => P b k ∧ t.fcause = 0#4) t t'

namespace SameAnswer

variable {P : Nat → Nat → Prop}

theorem complete {r0 r1 : Nat} {f : Bool} (h : AgreeOn P u u') :
    SameAnswer P (.next (complete r0 r1 f u)) (.next (Machine.complete r0 r1 f u')) := by
  obtain ⟨hframe, hread⟩ := h
  rintro _ ⟨⟩
  exact ⟨_, rfl, by rw [hframe]; rfl, fun b k ⟨hP, _⟩ => hread b k hP⟩

theorem noWrites {r0 r1 : Nat} {f : Bool} (hP : ∀ b k, ¬P b k) :
    SameAnswer P (.next (Machine.complete r0 r1 f s)) (.next (Machine.complete r0 r1 f { s with bf := m })) :=
  complete (.of_none hP)

/-- An outcome in a faulted state: no written word is asked for. -/
theorem of_faulted (h : t.fcause ≠ 0#4) : SameAnswer P (.next t) (.next { t with bf := m }) := by
  rintro _ ⟨⟩
  exact ⟨_, rfl, .of_none fun _ _ ⟨_, h0⟩ => h h0⟩

theorem faultOf {cause : Cause} : SameAnswer P (faultOf cause i s) (Machine.faultOf cause i { s with bf := m }) :=
  of_faulted (t := raiseFault cause (encodeCmd i) s) (causeCode_ne_zero cause)

theorem ite {q : Prop} [Decidable q] {a a' b b' : Result} (ha : SameAnswer P a a') (hb : SameAnswer P b b') :
    SameAnswer P (if q then a else b) (if q then a' else b') := by
  split
  · exact ha
  · exact hb

theorem guarded {body body' : Result} (h : SameAnswer P body body') :
    SameAnswer P (guarded i s body) (Machine.guarded i { s with bf := m } body') := by
  rcases guarded_cases i s body with ⟨hf, he⟩ | ⟨hf, hsel, he⟩ | ⟨hf, hsel, he⟩ <;> rw [he]
  · rw [guarded_of_faulted (s := { s with bf := m }) hf]
    exact of_faulted (t := ignoreCommand s) hf
  · rw [guarded_of_bankRange (s := { s with bf := m }) hf hsel]
    exact faultOf
  · rw [guarded_of_ready (s := { s with bf := m }) hf hsel]
    exact h

/-- An access that answers in the first store answers in the second, and the rest goes on alike. -/
theorem orFault {α : Type} {x x' : Option α} {f f' : α → Result}
    (h : ∀ a, x = some a → ∃ a', x' = some a' ∧ SameAnswer P (f a) (f' a')) :
    SameAnswer P (orFault x f) (Machine.orFault x' f') := by
  intro t ht
  obtain ⟨a, ha, hfa⟩ := orFault_next_iff.1 ht
  obtain ⟨a', rfl, hsame⟩ := h a ha
  exact hsame t hfa

/-- BSET and BCLR read and write the one word of their bit. -/
theorem modifyBit {g : Nat → Nat → Nat} {rd : BankSel} {j : Nat} (hloc : SameLocations s m)
    (hread : memRead rd.toNat (j / s.cfg.w) { s with bf := m } = memRead rd.toNat (j / s.cfg.w) s) :
    SameAnswer (fun b k => b = rd.toNat ∧ k = j / s.cfg.w) (modifyBit g rd j s)
      (Machine.modifyBit g rd j { s with bf := m }) :=
  .orFault fun x hx => ⟨x, hread.trans hx, .orFault fun _ hu =>
    let ⟨u', hu', hagree⟩ := memWrite_agree hloc hu
    ⟨u', hu', .complete hagree⟩⟩

theorem combineBanks {op : Nat → Nat → Nat} {rd ra rb : BankSel} (hloc : SameLocations s m)
    (hread : ∀ b k, (b = ra.toNat ∨ b = rb.toNat) ∧ k < s.cfg.n → memRead b k { s with bf := m } = memRead b k s) :
    SameAnswer (fun b k => b = rd.toNat ∧ k < s.cfg.n) (combineBanks op rd ra rb s)
      (Machine.combineBanks op rd ra rb { s with bf := m }) :=
  .orFault fun _ hu =>
    let ⟨u', hu', hagree⟩ := combineFrom_agree hloc hread hu
    ⟨u', hu', .complete hagree⟩

end SameAnswer

/-- What a command answers and writes depends on no word but those its row of R43 says it reads. -/
theorem exec_sameAnswer (hw : 0 < s.cfg.w) (hloc : SameLocations s m)
    (hread : ∀ b k, readsWord s i b k → memRead b k { s with bf := m } = memRead b k s) :
    SameAnswer (writesWord s.cfg i) (exec i s) (exec i { s with bf := m }) := by
  cases i with
  | ispow2 | log2 | tany | tall => exact .guarded (.noWrites fun _ _ => id)
  | p2align => exact .guarded (.ite (.ite .faultOf (.noWrites fun _ _ => id)) .faultOf)
  | p2alignd => exact .guarded (.ite (.noWrites fun _ _ => id) .faultOf)
  | ruq | bfidx => exact .guarded (.ite .faultOf (.noWrites fun _ _ => id))
  | btst | rdw =>
    exact .guarded (.ite .faultOf (.orFault fun x hx =>
      ⟨x, (hread _ _ ⟨rfl, rfl⟩).trans hx, .noWrites fun _ _ => id⟩))
  | bset | bclr => exact .guarded (.ite .faultOf (.modifyBit hloc (hread _ _ ⟨rfl, rfl⟩)))
  | band | bxor => exact .guarded (.combineBanks hloc hread)
  | scanf ra c =>
    refine .guarded (.ite .faultOf (.orFault fun xs hxs => ?_))
    obtain ⟨ys, hys, hfound⟩ := scan_agree hloc hw hread hxs
    refine ⟨ys, hys, ?_⟩
    simp only [hfound]
    exact .noWrites fun _ _ => id
  | wrw =>
    exact .guarded (.ite .faultOf (.orFault fun _ hu =>
      let ⟨u', hu', hagree⟩ := memWrite_agree hloc hu
      ⟨u', hu', .complete hagree⟩))

end

/-! ### The statements of 20_memory.md -/

/-- Settles O27, from the frame of the command's store effect. -/
theorem commandsWriteOnlyTheirFootprint : Obligations.CommandsWriteOnlyTheirFootprint := fun _ _ _ h =>
  ⟨fun _ _ hne => not_not.1 fun hout => hne (exec_memory_frame h hout), fun _ _ => exec_keeps_locations h⟩

/-- Settles O28: the store's accesses, operation by operation, agree on the two stores, and both runs have the memory
frame of O27. -/
theorem footprintOfEveryCommand : Obligations.FootprintOfEveryCommand := by
  intro s t m i hs hm hread h
  obtain ⟨hcfg, hwf, -⟩ := hs
  have hw : 0 < s.cfg.w := by have := configValid_width hcfg; omega
  obtain ⟨t', h', hframe, hwritten⟩ := exec_sameAnswer hw (.of_wf hwf hm) hread t h
  refine ⟨t', h', by rw [hframe], by rw [hframe], by rw [hframe], fun b k => ⟨?_, fun hnot => ?_⟩⟩
  · exact fun hwrites h0 => hwritten b k ⟨hwrites, h0⟩
  · exact ⟨exec_memory_frame h fun hboth => hnot hboth.1, exec_memory_frame h' fun hboth => hnot hboth.1⟩

end Sys2Proof.Machine

/-! SUPPORT. Encoding (30_encoding.md): decode and encode undo one another; which words decode; that the step is total,
which selectors are out of range and which ports a command drives. -/

namespace Sys2Proof.Machine

open Sys2Proof.Claims

section

variable {c c' : Command} {i : Instr} {s t : State}

/-! ### Decoding: which command decodes to which instruction (R61, R62, R67) -/

/-- Every encoded word has its opcode and no 1 in a field its format does not use (R63, R64). -/
theorem encodeCmd_inTable (i : Instr) : Laws.EncodedWordInTable.Statement i := by
  cases i with
  | ispow2 => exact Laws.EncodedWordInTable.ispow2 ..
  | p2align => exact Laws.EncodedWordInTable.p2align ..
  | p2alignd => exact Laws.EncodedWordInTable.p2alignd ..
  | log2 => exact Laws.EncodedWordInTable.log2 ..
  | ruq => exact Laws.EncodedWordInTable.ruq ..
  | tany => exact Laws.EncodedWordInTable.tany ..
  | tall => exact Laws.EncodedWordInTable.tall ..
  | bfidx => exact Laws.EncodedWordInTable.bfidx ..
  | btst => exact Laws.EncodedWordInTable.btst ..
  | bset => exact Laws.EncodedWordInTable.bset ..
  | bclr => exact Laws.EncodedWordInTable.bclr ..
  | band => exact Laws.EncodedWordInTable.band ..
  | bxor => exact Laws.EncodedWordInTable.bxor ..
  | scanf => exact Laws.EncodedWordInTable.scanf ..
  | rdw => exact Laws.EncodedWordInTable.rdw ..
  | wrw => exact Laws.EncodedWordInTable.wrw ..

/-- Step 2 of R72: the opcode is on the map and every unused bit is 0. -/
theorem decode_eq_ok_iff_assemble :
    decode c = .ok i ↔ assemble c = some i ∧ c.cmd &&& ~~~(usedMask (formatOf i)) = 0#32 := by
  unfold decode
  cases assemble c with
  | none => simp
  | some j =>
    by_cases hm : c.cmd &&& ~~~(usedMask (formatOf j)) = 0#32
    · simp only [hm, if_true, Except.ok.injEq, Option.some.injEq]
      exact ⟨fun h => ⟨h, h ▸ hm⟩, And.left⟩
    · simp only [hm, if_false, Option.some.injEq, reduceCtorEq, false_iff, not_and]
      exact fun h hm' => hm (h ▸ hm')

/-- The opcode map gives each opcode its own command (R64). -/
theorem opcodeOf_of_assemble (h : assemble c = some i) : opcodeOf i = fieldOp c.cmd := by
  unfold assemble at h
  split at h <;> cases h <;> exact (BitVec.eq_of_toNat_eq ‹_›).symm

/-- The map takes the operands from the ports the command uses (R67). -/
theorem operands_of_assemble (h : assemble c = some i) :
    encodeOpa i = (if usesOpa i then c.opa else 0) ∧ encodeOpb i = if usesOpb i then c.opb else 0 := by
  unfold assemble at h
  split at h <;> cases h <;> exact ⟨rfl, rfl⟩

/-- With the unused bits 0, no bit of the word is dropped (R61, R63). -/
theorem encodeCmd_of_assemble (h : assemble c = some i) (hm : c.cmd &&& ~~~(usedMask (formatOf i)) = 0#32) :
    encodeCmd i = c.cmd := by
  have hop := opcodeOf_of_assemble h
  rw [and_not_usedMask_iff, ← hop] at hm
  rw [hm]
  unfold assemble at h
  split at h <;> cases h <;> rfl

/-- The map reads an instruction back from its own word and its own operands. -/
theorem assemble_eq_of_encodeCmd (hcmd : encodeCmd i = c.cmd) (hopa : encodeOpa i = if usesOpa i then c.opa else 0)
    (hopb : encodeOpb i = if usesOpb i then c.opb else 0) : assemble c = some i := by
  obtain ⟨cmd, opa, opb⟩ := c
  subst hcmd
  cases i <;> (cases hopa; cases hopb; simp [assemble, encodeCmd, opcodeOf])

/-- A command decodes to an instruction exactly when it carries the instruction's word, and its operands on the ports it
uses (R61 to R64, R67). -/
theorem decode_eq_ok_iff : decode c = .ok i ↔
    encodeCmd i = c.cmd ∧ encodeOpa i = (if usesOpa i then c.opa else 0) ∧
      encodeOpb i = if usesOpb i then c.opb else 0 := by
  rw [decode_eq_ok_iff_assemble]
  constructor
  · rintro ⟨h, hm⟩
    exact ⟨encodeCmd_of_assemble h hm, operands_of_assemble h⟩
  · rintro ⟨hcmd, hopa, hopb⟩
    exact ⟨assemble_eq_of_encodeCmd hcmd hopa hopb, hcmd ▸ (encodeCmd_inTable i).1⟩

/-- A port the instruction ignores is presented as 0 (R70). -/
theorem encode_ignored_ports (i : Instr) :
    encodeOpa i = (if usesOpa i then encodeOpa i else 0) ∧ encodeOpb i = if usesOpb i then encodeOpb i else 0 := by
  cases i <;> exact ⟨rfl, rfl⟩

theorem decode_encode (i : Instr) : decode (encode i) = .ok i :=
  decode_eq_ok_iff.2 ⟨rfl, encode_ignored_ports i⟩

/-- An ignored port has no part in the decoding (R67). -/
theorem decode_congr (hcmd : c'.cmd = c.cmd) (h : decode c = .ok i) (hopa : usesOpa i = true → c'.opa = c.opa)
    (hopb : usesOpb i = true → c'.opb = c.opb) : decode c' = .ok i := by
  obtain ⟨hw, ha, hb⟩ := decode_eq_ok_iff.1 h
  refine decode_eq_ok_iff.2 ⟨hw.trans hcmd.symm, ha.trans ?_, hb.trans ?_⟩
  · exact ite_congr rfl (fun hu => (hopa hu).symm) fun _ => rfl
  · exact ite_congr rfl (fun hu => (hopb hu).symm) fun _ => rfl

/-! ### Presenting a command (R72) -/

theorem issue_of_decode_ok (hwf : c.wellFormed s.cfg = true) (h : decode c = .ok i) : issue c s = exec i s := by
  simp [issue, hwf, h]

theorem issue_of_decode_error {e : DecodeError} (hwf : c.wellFormed s.cfg = true) (h : decode c = .error e) :
    issue c s = illegalCommand c.cmd s := by
  simp [issue, hwf, h]

theorem step_of_command {rest : List HostAction} (hcfg : configValid s.cfg = true)
    (hp : s.pending = .command c :: rest) : step s = issue c { s with pending := rest } := by
  simp [step, serveHost, hcfg, hp]

theorem step_of_reset {rest : List HostAction} (hcfg : configValid s.cfg = true)
    (hp : s.pending = .reset :: rest) : step s = .next (resetUnit { s with pending := rest }) := by
  simp [step, serveHost, hcfg, hp]

end

section

variable {c : Command} {i : Instr} {s : State} {r : OpcodeRow} {w : BitVec 32}

/-! ### The words that decode: the rows of the opcode table (R62), and what R63 and R65 call illegal -/

/-- An opcode on the map assembles, to an instruction of the same format (R62, R64). -/
theorem assemble_of_opcodeOf (h : opcodeOf i = fieldOp c.cmd) :
    ∃ j, assemble c = some j ∧ formatOf j = formatOf i := by
  cases i <;> (rw [assemble, ← h]; exact ⟨_, rfl, rfl⟩)

/-- A command decodes exactly when some instruction has its opcode and no unused bit of its format set (R63). -/
theorem decodes_iff : (∃ j, decode c = .ok j) ↔
    ∃ i, fieldOp c.cmd = opcodeOf i ∧ c.cmd &&& ~~~(usedMask (formatOf i)) = 0#32 := by
  constructor
  · rintro ⟨j, hj⟩
    obtain ⟨ha, hm⟩ := decode_eq_ok_iff_assemble.1 hj
    exact ⟨j, (opcodeOf_of_assemble ha).symm, hm⟩
  · rintro ⟨i, hop, hm⟩
    obtain ⟨j, hj, hformat⟩ := assemble_of_opcodeOf hop.symm
    exact ⟨j, decode_eq_ok_iff_assemble.2 ⟨hj, hformat ▸ hm⟩⟩

/-- The mask of a format's rows: the opcode and every unused bit (R62). -/
def rowMask (f : Format) : BitVec 32 := ~~~(usedMask f) ||| 0xFF#32

/-- The opcode field alone sets the two masks of a format apart. -/
theorem masks_eq_fields (f : Format) : ∃ (z : BitVec 12) (b a d : BankSel),
    ~~~(usedMask f) = z ++ b ++ a ++ d ++ 0x00#8 ∧ rowMask f = z ++ b ++ a ++ d ++ 0xFF#8 := by
  cases f
  · exact ⟨0xFFF#12, 0xF#4, 0xF#4, 0xF#4, by decide, by decide⟩
  · exact ⟨0xFFF#12, 0xF#4, 0x0#4, 0xF#4, by decide, by decide⟩
  · exact ⟨0xFFF#12, 0xF#4, 0xF#4, 0x0#4, by decide, by decide⟩
  · exact ⟨0xFFF#12, 0x0#4, 0x0#4, 0x0#4, by decide, by decide⟩

theorem zeroExtend_eq_packCmd (op : BitVec 8) : op.zeroExtend 32 = packCmd 0#4 0#4 0#4 op := by
  apply BitVec.eq_of_toNat_eq
  rw [packCmd_toNat]
  have := op.isLt
  simp
  omega

/-- What a row asks of a word: its opcode, and none of the unused bits set. -/
theorem and_rowMask_iff (f : Format) (op : BitVec 8) :
    w &&& rowMask f = op.zeroExtend 32 ↔ fieldOp w = op ∧ w &&& ~~~(usedMask f) = 0#32 := by
  obtain ⟨z, b, a, d, hused, hrow⟩ := masks_eq_fields f
  have hzero : (0#32 : BitVec 32) = packCmd 0#4 0#4 0#4 0#8 := by decide
  have hones : fieldOp w &&& 0xFF#8 = fieldOp w := BitVec.and_allOnes
  rw [hused, hrow, hzero, zeroExtend_eq_packCmd]
  conv_lhs => lhs; rw [cmd_eq_fields w]
  conv_rhs => rhs; lhs; rw [cmd_eq_fields w]
  simp only [packCmd]
  rw [and_fields, and_fields, fields_inj, fields_inj, hones, BitVec.and_zero]
  tauto

/-- The row is the one of the instruction's opcode and format. -/
def IsRowOf (r : OpcodeRow) (i : Instr) : Prop :=
  r.pattern = (opcodeOf i).zeroExtend 32 ∧ r.mask = rowMask (formatOf i)

theorem IsRowOf.selects_iff (h : IsRowOf r i) :
    w &&& r.mask = r.pattern ↔ fieldOp w = opcodeOf i ∧ w &&& ~~~(usedMask (formatOf i)) = 0#32 := by
  rw [h.1, h.2, and_rowMask_iff]

/-- Every instruction has a row (R64). -/
theorem exists_row_of_instr (i : Instr) : ∃ r ∈ opcodeTable, IsRowOf r i := by
  unfold IsRowOf
  cases i <;> simp only [opcodeOf, formatOf] <;> decide

/-- Every row is an instruction's (R64). -/
theorem exists_instr_of_row : ∀ r ∈ opcodeTable, ∃ i, IsRowOf r i := by
  simp only [opcodeTable, List.forall_mem_cons, IsRowOf]
  exact ⟨⟨.ispow2 0, by decide⟩, ⟨.p2align 0 0, by decide⟩, ⟨.p2alignd 0 0, by decide⟩, ⟨.log2 0, by decide⟩,
    ⟨.ruq 0 0, by decide⟩, ⟨.tany 0 0, by decide⟩, ⟨.tall 0 0, by decide⟩, ⟨.bfidx 0, by decide⟩,
    ⟨.btst 0 0, by decide⟩, ⟨.bset 0 0, by decide⟩, ⟨.bclr 0 0, by decide⟩, ⟨.band 0 0 0, by decide⟩,
    ⟨.bxor 0 0 0, by decide⟩, ⟨.scanf 0 0, by decide⟩, ⟨.rdw 0 0, by decide⟩, ⟨.wrw 0 0 0, by decide⟩, nofun⟩

/-- A word that selects a row carries the row's opcode. -/
theorem pattern_of_selected (hr : r ∈ opcodeTable) (h : w &&& r.mask = r.pattern) :
    r.pattern = (fieldOp w).zeroExtend 32 := by
  obtain ⟨i, hi⟩ := exists_instr_of_row r hr
  rw [hi.1, (hi.selects_iff.1 h).1]

/-- No two rows have one opcode (R64). -/
theorem row_eq_of_pattern_eq : ∀ r ∈ opcodeTable, ∀ r' ∈ opcodeTable, r.pattern = r'.pattern → r = r' := by decide

/-- What the decoder checks is what the rows ask (R62). -/
theorem decodes_iff_selects_row : (∃ j, decode c = .ok j) ↔ ∃ r ∈ opcodeTable, c.cmd &&& r.mask = r.pattern := by
  rw [decodes_iff]
  constructor
  · rintro ⟨i, hi⟩
    obtain ⟨r, hmem, hr⟩ := exists_row_of_instr i
    exact ⟨r, hmem, hr.selects_iff.2 hi⟩
  · rintro ⟨r, hmem, hsel⟩
    obtain ⟨i, hr⟩ := exists_instr_of_row r hmem
    exact ⟨i, hr.selects_iff.1 hsel⟩

/-- R63 and R65, said of a legal word: its opcode is on the map, ZERO is 0, and so is each selector its format does not
use. -/
theorem illegalWord_eq_false_iff (v : Nat) : illegalWord v = false ↔
    1 ≤ v % 256 ∧ v % 256 ≤ 16 ∧ v / 1048576 = 0 ∧
      (8 < v % 256 ∨ v / 256 % 16 = 0 ∧ v / 4096 % 16 = 0 ∧ v / 65536 % 16 = 0) ∧
      (v % 256 ≠ 9 ∧ v % 256 ≠ 14 ∧ v % 256 ≠ 15 ∨ v / 256 % 16 = 0 ∧ v / 65536 % 16 = 0) ∧
      (v % 256 ≠ 10 ∧ v % 256 ≠ 11 ∧ v % 256 ≠ 16 ∨ v / 4096 % 16 = 0 ∧ v / 65536 % 16 = 0) := by
  simp only [illegalWord, Bool.or_eq_false_iff, Bool.and_eq_false_iff, beq_eq_false_iff_ne, decide_eq_false_iff_not,
    List.contains_eq_mem, List.mem_cons, List.not_mem_nil, or_false]
  omega

/-- On an opcode of the map that is: the unused bits of its format are 0. -/
theorem legal_iff_unused_zero (h : fieldOp w = opcodeOf i) :
    illegalWord w.toNat = false ↔ w &&& ~~~(usedMask (formatOf i)) = 0#32 := by
  have hop : w.toNat % 256 = (opcodeOf i).toNat := by rw [← fieldOp_toNat, h]
  rw [and_not_usedMask_iff, illegalWord_eq_false_iff, ← BitVec.toNat_inj]
  cases i
  all_goals
    simp only [opcodeOf, BitVec.toNat_ofNat] at hop
    simp only [formatOf, packCmd_toNat, fieldOp_toNat, fieldRd_toNat, fieldRa_toNat, fieldRb_toNat, BitVec.toNat_ofNat,
      hop]
    omega

/-- R65: the opcodes that are not reserved are those of the commands. -/
theorem exists_opcodeOf (h1 : 1 ≤ (fieldOp c.cmd).toNat) (h16 : (fieldOp c.cmd).toNat ≤ 16) :
    ∃ i, fieldOp c.cmd = opcodeOf i := by
  cases ha : assemble c with
  | some j => exact ⟨j, (opcodeOf_of_assemble ha).symm⟩
  | none =>
    unfold assemble at ha
    split at ha
    case h_17 => exfalso; simp only [imp_false] at *; omega
    all_goals cases ha

/-- R63 and R65 name exactly the words that do not decode. -/
theorem decodes_iff_legal : (∃ j, decode c = .ok j) ↔ illegalWord c.cmd.toNat = false := by
  rw [decodes_iff]
  constructor
  · rintro ⟨i, hop, hm⟩
    exact (legal_iff_unused_zero hop).2 hm
  · intro h
    obtain ⟨h1, h16, -⟩ := (illegalWord_eq_false_iff _).1 h
    rw [← fieldOp_toNat] at h1 h16
    obtain ⟨i, hop⟩ := exists_opcodeOf h1 h16
    exact ⟨i, hop, (legal_iff_unused_zero hop).1 h⟩

/-- Fault entry as R203 writes it. -/
theorem raiseFault_eq_faultEntered (cause : Cause) (cmd : BitVec 32) (s : State) :
    raiseFault cause cmd s = faultEntered (causeCode cause) cmd s := rfl

/-- A word that is no command is fault entry with `ILLEGAL_CMD` (R63, R203). -/
theorem issue_of_illegalWord (hf : s.fcause = 0#4) (hc : c.wellFormed s.cfg = true)
    (h : illegalWord c.cmd.toNat = true) : issue c s = .next (faultEntered 1#4 c.cmd s) := by
  cases hdec : decode c with
  | ok i => exact absurd (h.symm.trans (decodes_iff_legal.1 ⟨i, hdec⟩)) nofun
  | error e =>
    rw [issue_of_decode_error hc hdec, illegalCommand, unlessFaulted, if_pos hf, raiseFault_eq_faultEntered, causeCode]

end

section

variable {c : Command} {i : Instr} {s t u : State} {body : Result}

/-! ### The step is total (R72, R237) -/

/-- The outcome is a next state: the model neither faults nor refuses. -/
def IsNext (res : Result) : Prop := ∃ t, res = .next t

namespace IsNext

theorem next : IsNext (.next t) := ⟨t, rfl⟩

theorem faultOf {cause : Cause} : IsNext (faultOf cause i s) := next

theorem ite {p : Prop} [Decidable p] {a b : Result} (ha : p → IsNext a) (hb : ¬p → IsNext b) :
    IsNext (if p then a else b) := by
  split
  · exact ha ‹_›
  · exact hb ‹_›

/-- Behind the guards the selectors name banks that exist (R66). -/
theorem guarded (h : (∀ sel ∈ selectorsOf i, sel.toNat < s.cfg.nb) → IsNext body) : IsNext (guarded i s body) := by
  rcases guarded_cases i s body with ⟨-, he⟩ | ⟨-, -, he⟩ | ⟨-, hsel, he⟩ <;> rw [he]
  · exact next
  · exact next
  · exact h hsel

theorem orFault {α : Type} {r : Option α} {f : α → Result} (hr : r.isSome = true) (hf : ∀ a, IsNext (f a)) :
    IsNext (orFault r f) := by
  obtain ⟨a, rfl⟩ := Option.isSome_iff_exists.1 hr
  exact hf a

theorem modifyBit {f : Nat → Nat → Nat} {rd : BankSel} {j : Nat}
    (h : (memRead rd.toNat (j / s.cfg.w) s).isSome = true) : IsNext (modifyBit f rd j s) :=
  .orFault h fun _ => .orFault (memWrite_isSome.trans h) fun _ => .next

/-- A sweep over three banks that exist meets no missing location (R53). -/
theorem combineBanks {op : Nat → Nat → Nat} {rd ra rb : BankSel} (hwf : Memory.wf s.cfg s.bf = true)
    (hsel : ∀ sel ∈ [rd, ra, rb], sel.toNat < s.cfg.nb) : IsNext (combineBanks op rd ra rb s) := by
  have hloc : ∀ sel ∈ [rd, ra, rb], ∀ j, j < 0 + s.cfg.n → (memRead sel.toNat j s).isSome = true :=
    fun sel hmem j hj => (memRead_isSome_iff hwf).2 ⟨hsel sel hmem, by omega⟩
  obtain ⟨u, hu⟩ := combineFrom_isSome (op := op) fun j _ hj =>
    ⟨hloc ra (by simp) j hj, hloc rb (by simp) j hj, hloc rd (by simp) j hj⟩
  exact .orFault (by rw [hu]; rfl) fun _ => .next

end IsNext

/-- The bank of a one-selector command holds its words (R40). -/
theorem word_isSome {sel : BankSel} {k : Nat} (hwf : Memory.wf s.cfg s.bf = true)
    (hsel : ∀ b ∈ [sel], b.toNat < s.cfg.nb) (hk : k < s.cfg.n) : (memRead sel.toNat k s).isSome = true :=
  (memRead_isSome_iff hwf).2 ⟨hsel sel (List.mem_singleton_self sel), hk⟩

/-- So it holds the word of every bit index below `CAP` (R132 c). -/
theorem bitWord_isSome {sel : BankSel} {j : Nat} (hwf : Memory.wf s.cfg s.bf = true)
    (hsel : ∀ b ∈ [sel], b.toNat < s.cfg.nb) (hj : ¬s.cfg.cap ≤ j) :
    (memRead sel.toNat (j / s.cfg.w) s).isSome = true :=
  word_isSome hwf hsel (Nat.div_lt_of_lt_mul (Nat.mul_comm s.cfg.n s.cfg.w ▸ not_le.1 hj))

/-- Every command has its next state: behind its checks it reaches existing locations alone (R53, R72). -/
theorem exec_isNext (hwf : Memory.wf s.cfg s.bf = true) : IsNext (exec i s) := by
  cases i with
  | ispow2 | log2 | tany | tall => exact .guarded fun _ => .next
  | p2align => exact .guarded fun _ => .ite (fun _ => .ite (fun _ => .faultOf) fun _ => .next) fun _ => .faultOf
  | p2alignd => exact .guarded fun _ => .ite (fun _ => .next) fun _ => .faultOf
  | ruq | bfidx => exact .guarded fun _ => .ite (fun _ => .faultOf) fun _ => .next
  | btst =>
    exact .guarded fun hsel => .ite (fun _ => .faultOf) fun hj => .orFault (bitWord_isSome hwf hsel hj) fun _ => .next
  | bset | bclr =>
    exact .guarded fun hsel => .ite (fun _ => .faultOf) fun hj => .modifyBit (bitWord_isSome hwf hsel hj)
  | band | bxor => exact .guarded fun hsel => .combineBanks hwf hsel
  | scanf ra cursor =>
    refine .guarded fun hsel => .ite (fun _ => .faultOf) fun _ => .orFault ?_ fun _ => .next
    exact Option.isSome_iff_exists.2 (memReadFrom_isSome fun j _ hj => word_isSome hwf hsel (by omega))
  | rdw =>
    exact .guarded fun hsel => .ite (fun _ => .faultOf) fun hk =>
      .orFault (word_isSome hwf hsel (not_le.1 hk)) fun _ => .next
  | wrw =>
    exact .guarded fun hsel => .ite (fun _ => .faultOf) fun hk =>
      .orFault (memWrite_isSome.trans (word_isSome hwf hsel (not_le.1 hk))) fun _ => .next

theorem illegalCommand_isNext {cmd : BitVec 32} : IsNext (illegalCommand cmd s) := .ite (fun _ => .next) fun _ => .next

/-- Every command that fits the ports has its next state, legal or not. -/
theorem issue_isNext (hwf : Memory.wf s.cfg s.bf = true) (hc : c.wellFormed s.cfg = true) : IsNext (issue c s) := by
  cases hdec : decode c with
  | ok i => exact issue_of_decode_ok hc hdec ▸ exec_isNext hwf
  | error e => exact issue_of_decode_error hc hdec ▸ illegalCommand_isNext

/-- The interactions of R235: none, RESET, and a command. -/
theorem step_isNext (hs : s.Inv) : IsNext (step s) := by
  obtain ⟨hcfg, hwf, -, -, -, hpend⟩ := hs
  match hp : s.pending with
  | [] => exact step_of_idle hcfg hp ▸ .next
  | .reset :: rest => exact step_of_reset hcfg hp ▸ .next
  | .command c :: rest =>
    have hc : (HostAction.command c).wellFormed s.cfg = true := hpend _ (hp ▸ List.mem_cons_self)
    exact step_of_command hcfg hp ▸ issue_isNext (s := { s with pending := rest }) hwf hc

/-! ### What the pseudocode of a command can answer (R66, R68) -/

/-- These results are 0 on every port the command does not drive (R68). -/
def UndrivenZero (i : Instr) (r0 r1 : Nat) (f : Bool) : Prop :=
  (drivesRes0 i = false → r0 = 0) ∧ (drivesRes1 i = false → r1 = 0) ∧ (drivesFlag i = false → f = false)

theorem undrivenZero_zero : UndrivenZero i 0 0 false := ⟨fun _ => rfl, fun _ => rfl, fun _ => rfl⟩

theorem UndrivenZero.ofRes0 {r0 : Nat} (h : drivesRes0 i = true) : UndrivenZero i r0 0 false :=
  ⟨fun h' => absurd (h.symm.trans h') nofun, fun _ => rfl, fun _ => rfl⟩

theorem UndrivenZero.ofFlag {f : Bool} (h : drivesFlag i = true) : UndrivenZero i 0 0 f :=
  ⟨fun _ => rfl, fun _ => rfl, fun h' => absurd (h.symm.trans h') nofun⟩

/-- What the pseudocode of `i` answers behind the guards: a fault of its operands, or results on the
ports it drives, with the cause register as it was. -/
def BodyAnswer (i : Instr) (s : State) (body : Result) : Prop :=
  ∀ t, body = .next t → (∃ cause, cause ≠ .bankRange ∧ t = raiseFault cause (encodeCmd i) s) ∨
    ∃ r0 r1 f u, t = complete r0 r1 f u ∧ u.fcause = s.fcause ∧ UndrivenZero i r0 r1 f

namespace BodyAnswer

theorem complete {r0 r1 : Nat} {f : Bool} (hu : u.fcause = s.fcause) (h : UndrivenZero i r0 r1 f) :
    BodyAnswer i s (.next (complete r0 r1 f u)) := by
  rintro _ ⟨⟩
  exact .inr ⟨r0, r1, f, u, rfl, hu, h⟩

theorem faultOf {cause : Cause} (h : cause ≠ .bankRange) : BodyAnswer i s (faultOf cause i s) := by
  rintro _ ⟨⟩
  exact .inl ⟨cause, h, rfl⟩

theorem ite {p : Prop} [Decidable p] {a b : Result} (ha : BodyAnswer i s a) (hb : BodyAnswer i s b) :
    BodyAnswer i s (if p then a else b) := by
  split
  · exact ha
  · exact hb

theorem orFault {α : Type} {r : Option α} {f : α → Result} (h : ∀ a, r = some a → BodyAnswer i s (f a)) :
    BodyAnswer i s (orFault r f) := fun t ht =>
  let ⟨a, ha, hf⟩ := orFault_next_iff.1 ht
  h a ha t hf

/-- A write leaves the cause register. -/
theorem memWrite {b k v : Nat} :
    BodyAnswer i s (Machine.orFault (memWrite b k v s) fun u => .next (Machine.complete 0 0 false u)) :=
  orFault fun u hu => complete (by rw [(memWrite_spec hu).1]) undrivenZero_zero

theorem modifyBit {f : Nat → Nat → Nat} {rd : BankSel} {j : Nat} : BodyAnswer i s (modifyBit f rd j s) :=
  orFault fun _ _ => memWrite

theorem combineBanks {op : Nat → Nat → Nat} {rd ra rb : BankSel} : BodyAnswer i s (combineBanks op rd ra rb s) :=
  orFault fun u hu => complete (by rw [(combineFrom_spec hu).1]) undrivenZero_zero

end BodyAnswer

/-- Every command is its pseudocode behind the guards of R72. -/
theorem exec_eq_guarded (i : Instr) (s : State) : ∃ body, exec i s = guarded i s body ∧ BodyAnswer i s body := by
  cases i with
  | ispow2 | tany | tall => exact ⟨_, rfl, .complete rfl (.ofFlag rfl)⟩
  | p2align =>
    exact ⟨_, rfl, .ite (.ite (.faultOf nofun) (.complete rfl (.ofRes0 rfl))) (.faultOf nofun)⟩
  | p2alignd => exact ⟨_, rfl, .ite (.complete rfl (.ofRes0 rfl)) (.faultOf nofun)⟩
  | log2 => exact ⟨_, rfl, .complete rfl (.ofRes0 rfl)⟩
  | ruq => exact ⟨_, rfl, .ite (.faultOf nofun) (.complete rfl (.ofRes0 rfl))⟩
  | bfidx => exact ⟨_, rfl, .ite (.faultOf nofun) (.complete rfl ⟨nofun, nofun, fun _ => rfl⟩)⟩
  | btst => exact ⟨_, rfl, .ite (.faultOf nofun) (.orFault fun _ _ => .complete rfl (.ofFlag rfl))⟩
  | bset | bclr => exact ⟨_, rfl, .ite (.faultOf nofun) .modifyBit⟩
  | band | bxor => exact ⟨_, rfl, .combineBanks⟩
  | scanf => exact ⟨_, rfl, .ite (.faultOf nofun) (.orFault fun _ _ => .complete rfl ⟨nofun, fun _ => rfl, nofun⟩)⟩
  | rdw => exact ⟨_, rfl, .ite (.faultOf nofun) (.orFault fun _ _ => .complete rfl (.ofRes0 rfl))⟩
  | wrw => exact ⟨_, rfl, .ite (.faultOf nofun) .memWrite⟩

/-- A used selector that names no bank is fault entry with `BANK_RANGE`, whatever the operands (R66). -/
theorem exec_of_bankRange (hf : s.fcause = 0#4) (hsel : ∃ sel ∈ selectorsOf i, s.cfg.nb ≤ sel.toNat) :
    exec i s = .next (faultEntered 2#4 (encodeCmd i) s) := by
  obtain ⟨body, hexec, -⟩ := exec_eq_guarded i s
  rw [hexec, guarded_of_bankRange hf hsel, raiseFault_eq_faultEntered, causeCode]

/-- `BANK_RANGE` is raised for a selector out of range alone (R201). -/
theorem bankRange_of_exec_next (hf : s.fcause = 0#4) (h : exec i s = .next t) (ht : t.fcause = 2#4) :
    ∃ sel ∈ selectorsOf i, s.cfg.nb ≤ sel.toNat := by
  obtain ⟨body, hexec, hbody⟩ := exec_eq_guarded i s
  by_contra hnot
  push Not at hnot
  rw [hexec, guarded_of_ready hf hnot] at h
  rcases hbody t h with ⟨cause, hcause, rfl⟩ | ⟨r0, r1, f, u, rfl, hu, -⟩
  · exact hcause (causeCode_injective (d := .bankRange) ht)
  · exact absurd (ht.symm.trans (hu.trans hf)) (by decide)

/-- The response of a command is the results of its completion, or 0 on a faulted unit (R68, R203, R204). -/
theorem exec_response (h : exec i s = .next t) : ∃ r0 r1 f,
    t.response = some ⟨r0, r1, f, t.fcause, t.fcmd⟩ ∧ UndrivenZero i r0 r1 f ∧
      (t.fcause ≠ 0#4 → r0 = 0 ∧ r1 = 0 ∧ f = false) := by
  obtain ⟨body, hexec, hbody⟩ := exec_eq_guarded i s
  rw [hexec] at h
  rcases guarded_cases i s body with ⟨hf, he⟩ | ⟨hf, -, he⟩ | ⟨hf, -, he⟩ <;> rw [he] at h
  · cases h; exact ⟨0, 0, false, rfl, undrivenZero_zero, fun _ => ⟨rfl, rfl, rfl⟩⟩
  · cases h; exact ⟨0, 0, false, rfl, undrivenZero_zero, fun _ => ⟨rfl, rfl, rfl⟩⟩
  · rcases hbody t h with ⟨cause, -, rfl⟩ | ⟨r0, r1, f, u, rfl, hu, hports⟩
    · exact ⟨0, 0, false, rfl, undrivenZero_zero, fun _ => ⟨rfl, rfl, rfl⟩⟩
    · exact ⟨r0, r1, f, rfl, hports, fun hne => absurd (hu.trans hf) hne⟩

end

/-! ### The statements of 30_encoding.md -/

/-- Settles O1: fourteen fixed words, each decoded by evaluation. -/
theorem commandWordsDecodeAsTheSpecWritesThem : Obligations.CommandWordsDecodeAsTheSpecWritesThem := by
  unfold Obligations.CommandWordsDecodeAsTheSpecWritesThem
  decide

/-- Settles O2: the encoded word is the instruction's word, and an ignored port is presented as 0. -/
theorem decodeInvertsEncode : Obligations.DecodeInvertsEncode := decode_encode

/-- Settles O3: the forward direction of `decode_eq_ok_iff`. -/
theorem encodeInvertsDecode : Obligations.EncodeInvertsDecode := fun _ _ => decode_eq_ok_iff.1

/-- Settles O4: each row of the table is that of one opcode and its format, and fixes what the decoder checks. -/
theorem decodeAcceptsExactlyTheTableRows : Obligations.DecodeAcceptsExactlyTheTableRows := by
  refine fun c => ⟨decodes_iff_selects_row, fun r hr r' hr' h h' => ?_, fun i r hr hdec h => ?_⟩
  · exact row_eq_of_pattern_eq r hr r' hr' ((pattern_of_selected hr h).trans (pattern_of_selected hr' h').symm)
  · rw [pattern_of_selected hr h, opcodeOf_of_assemble (decode_eq_ok_iff_assemble.1 hdec).1]

/-- Settles O5: a word decodes exactly when R63 and R65 do not name it. -/
theorem illegalCommandWordsFault : Obligations.IllegalCommandWordsFault := fun _ _ hf hc =>
  ⟨issue_of_illegalWord hf hc, decodes_iff_legal.2⟩

/-- Settles O7, from `serveHost` on a list that begins with a command, and `issue` on a word that decodes. -/
theorem stepRunsTheDecodedCommand : Obligations.StepRunsTheDecodedCommand := by
  intro s c rest hcfg hp hwf
  have hstep := step_of_command hcfg hp
  exact ⟨hstep, fun i hdec => ⟨hstep.trans (issue_of_decode_ok hwf hdec), decode_wellFormed hdec hwf⟩⟩

/-- Settles O13, interaction by interaction: idle, RESET, a command that decodes, a word that is no command. -/
theorem stepIsTotal : Obligations.StepIsTotal := fun _ => step_isNext

/-- Settles O17: the guards raise `BANK_RANGE` and no pseudocode does; a four-bit selector is below 16. -/
theorem usedSelectorOutOfRangeFaults : Obligations.UsedSelectorOutOfRangeFaults := by
  refine fun s i hf => ⟨exec_of_bankRange hf, fun hnb t h ht => ?_⟩
  obtain ⟨sel, -, hsel⟩ := bankRange_of_exec_next hf h ht
  exact absurd sel.isLt (not_lt.2 (hnb.symm.trans_le hsel))

/-- Settles O24, from the ports each command's pseudocode drives. -/
theorem undrivenPortsAreZero : Obligations.UndrivenPortsAreZero := by
  intro s t i r h hr
  obtain ⟨r0, r1, f, hresp, ⟨h0, h1, hflag⟩, hfault⟩ := exec_response h
  cases hresp.symm.trans hr
  exact ⟨h0, h1, hflag, hfault⟩

/-- Settles O25: both commands decode to the one instruction, so both run it. -/
theorem ignoredOperandsHaveNoEffect : Obligations.IgnoredOperandsHaveNoEffect := by
  intro s c c' i hwf hwf' hcmd hdec hopa hopb
  rw [issue_of_decode_ok hwf hdec, issue_of_decode_ok hwf' (decode_congr hcmd hdec hopa hopb)]

end Sys2Proof.Machine

/-! SUPPORT. Alignment and power-of-two arithmetic (40_align_pow2.md): what each of the five commands answers on an
unfaulted unit, and the arithmetic of its result. None uses a bank, so all five share one frame. -/

namespace Sys2Proof.Machine

open Sys2Proof.Claims

section

variable {s : State} {i : Instr} {body : Result} {w value alignment : Nat}

/-! ### The frame of a command -/

/-- A 1 among the bits a command's format does not use is `ILLEGAL_CMD`, whatever the command (R63). -/
theorem unusedBitsFault_of_instr (i : Instr) : unusedBitsFault (opcodeOf i) (~~~(usedMask (formatOf i))) := by
  intro s c hf hc hop hunused
  refine issue_of_illegalWord hf hc (Bool.eq_true_of_not_eq_false fun hlegal => hunused ?_)
  exact (legal_iff_unused_zero hop).1 hlegal

/-- The word of a command without selectors is its opcode (R61, R64). -/
theorem encodeCmd_of_formatS (h : formatOf i = .S) : encodeCmd i = (opcodeOf i).zeroExtend 32 := by
  obtain ⟨hunused, hop⟩ := encodeCmd_inTable i
  rwa [and_not_usedMask_iff, h, hop, ← zeroExtend_eq_packCmd] at hunused

/-- An unfaulted unit runs the pseudocode of a command that names no bank (R66, R72). -/
theorem guarded_of_no_selectors (hf : s.fcause = 0#4) (hsel : selectorsOf i = []) : guarded i s body = body :=
  guarded_of_ready hf (by simp [hsel])

/-- Fault entry of a command without selectors, with the opcode as the word that `FCMD` keeps (R203). -/
theorem faultOf_of_formatS (h : formatOf i = .S) (cause : Cause) (s : State) :
    faultOf cause i s = .next (faultEntered (causeCode cause) ((opcodeOf i).zeroExtend 32) s) := by
  rw [faultOf, encodeCmd_of_formatS h, raiseFault_eq_faultEntered]

/-! ### What each command answers on an unfaulted unit -/

theorem exec_ispow2 (hf : s.fcause = 0#4) (v : Nat) :
    exec (.ispow2 v) s = .next (answered 0 0 (ispow2 s.cfg.w v) s) :=
  guarded_of_no_selectors hf rfl

theorem exec_p2align (hf : s.fcause = 0#4) (value alignment : Nat) : exec (.p2align value alignment) s =
    if ispow2 s.cfg.w alignment then
      if 2 ^ s.cfg.w ≤ alignUp value alignment then .next (faultEntered 6#4 0x00000002#32 s)
      else .next (answered (alignUp value alignment) 0 false s)
    else .next (faultEntered 4#4 0x00000002#32 s) := by
  rw [exec, execP2align, guarded_of_no_selectors hf rfl, faultOf_of_formatS rfl, faultOf_of_formatS rfl]
  rfl

theorem exec_p2alignd (hf : s.fcause = 0#4) (value alignment : Nat) : exec (.p2alignd value alignment) s =
    if ispow2 s.cfg.w alignment then .next (answered (alignDown value alignment) 0 false s)
    else .next (faultEntered 4#4 0x00000003#32 s) := by
  rw [exec, execP2alignd, guarded_of_no_selectors hf rfl, faultOf_of_formatS rfl]
  rfl

theorem exec_log2 (hf : s.fcause = 0#4) (u : Nat) :
    exec (.log2 u) s = .next (answered (log2floor s.cfg.w u) 0 false s) :=
  guarded_of_no_selectors hf rfl

theorem exec_ruq (hf : s.fcause = 0#4) (dividend divisor : Nat) : exec (.ruq dividend divisor) s =
    if divisor = 0 then .next (faultEntered 5#4 0x00000005#32 s)
    else .next (answered (roundUpQuotient dividend divisor) 0 false s) := by
  rw [exec, execRuq, guarded_of_no_selectors hf rfl, faultOf_of_formatS rfl]
  rfl

/-! ### Powers of two (R100) -/

/-- A word that is a power of two has its exponent below the word width. -/
theorem ispow2_iff_exponent_lt {v : Nat} (hv : v < 2 ^ w) : ispow2 w v = true ↔ ∃ e, e < w ∧ v = 2 ^ e := by
  rw [ispow2_iff hv]
  constructor
  · rintro ⟨e, rfl⟩
    exact ⟨e, (Nat.pow_lt_pow_iff_right (by decide)).1 hv, rfl⟩
  · rintro ⟨e, -, rfl⟩
    exact ⟨e, rfl⟩

/-- The bit form of R100: taking the one 1 bit away leaves nothing. -/
theorem ispow2_iff_and_pred {v : Nat} (hv : v < 2 ^ w) : ispow2 w v = true ↔ v ≠ 0 ∧ v &&& (v - 1) = 0 := by
  rw [ispow2_iff hv]
  constructor
  · rintro ⟨e, rfl⟩
    have hne : 2 ^ e ≠ 0 := (Nat.two_pow_pos e).ne'
    exact ⟨hne, (Nat.and_sub_one_eq_zero_iff_isPowerOfTwo hne).2 ⟨e, rfl⟩⟩
  · rintro ⟨hne, hand⟩
    exact (Nat.and_sub_one_eq_zero_iff_isPowerOfTwo hne).1 hand

/-! ### Alignment (R101, R102) -/

/-- `alignDown` gives the greatest multiple at or below (R102). -/
theorem alignDown_spec (ha : 0 < alignment) :
    alignDown value alignment ≤ value ∧ alignDown value alignment % alignment = 0 ∧
      ∀ r, r ≤ value → r % alignment = 0 → r ≤ alignDown value alignment := by
  rw [alignDown, ← Nat.div_mul_self_eq_mod_sub_self]
  refine ⟨Nat.div_mul_le_self _ _, Nat.mul_mod_left _ _, fun r hr hmod => ?_⟩
  obtain ⟨q, rfl⟩ := Nat.dvd_of_mod_eq_zero hmod
  rw [Nat.mul_comm] at hr ⊢
  exact Nat.mul_le_mul_right _ ((Nat.le_div_iff_mul_le ha).2 hr)

/-- Rounding up is rounding down from `alignment - 1` above (R101). -/
theorem alignUp_eq_alignDown (ha : 0 < alignment) :
    alignUp value alignment = alignDown (value + (alignment - 1)) alignment := by
  rw [alignUp, alignDown, ← Nat.div_mul_self_eq_mod_sub_self, Nat.add_sub_assoc ha]

/-- The bit form of rounding down to `2^e`: the `e` low bits of an `n`-bit word are cleared. -/
theorem alignDown_two_pow_eq_and {n e x : Nat} (hx : x < 2 ^ n) (he : e ≤ n) :
    alignDown x (2 ^ e) = x &&& wordNot n (2 ^ e - 1) := by
  have hlow : 2 ^ e - 1 < 2 ^ n := by
    have := Nat.two_pow_pos e
    have := Nat.pow_le_pow_right (by decide : 0 < 2) he
    omega
  rw [alignDown, ← Nat.div_mul_self_eq_mod_sub_self]
  refine word_ext ((Nat.div_mul_le_self x _).trans_lt hx) (Nat.and_le_left.trans_lt hx) fun p hp => ?_
  rw [Nat.testBit_and, testBit_wordNot hlow, Nat.testBit_two_pow_sub_one, Nat.testBit_mul_two_pow]
  by_cases hep : e ≤ p
  · simp [hp, hep, not_lt.2 hep, Nat.testBit_div_two_pow]
  · simp [hep, not_le.1 hep]

/-- The bit form of R102. -/
theorem alignDown_eq_and {e : Nat} (hv : value < 2 ^ w) (ha : 2 ^ e < 2 ^ w) :
    alignDown value (2 ^ e) = value &&& wordNot w (2 ^ e - 1) :=
  alignDown_two_pow_eq_and hv ((Nat.pow_lt_pow_iff_right (by decide)).1 ha).le

/-- The bit form of R101, on `W + 1` bits because the sum may need the carry. -/
theorem alignUp_eq_and {e : Nat} (hv : value < 2 ^ w) (ha : 2 ^ e < 2 ^ w) :
    alignUp value (2 ^ e) = (value + (2 ^ e - 1)) &&& wordNot (w + 1) (2 ^ e - 1) := by
  have he : e < w := (Nat.pow_lt_pow_iff_right (by decide)).1 ha
  rw [alignUp_eq_alignDown (Nat.two_pow_pos e)]
  exact alignDown_two_pow_eq_and (by rw [pow_succ]; omega) (by omega)

/-- P2ALIGN overflows exactly when `value > 2^W - alignment`: that bound is the last multiple that fits (R101). -/
theorem alignUp_fits_iff (hfits : alignment < 2 ^ w) (ha : ∃ e, alignment = 2 ^ e) :
    alignUp value alignment < 2 ^ w ↔ value ≤ 2 ^ w - alignment := by
  obtain ⟨e, rfl⟩ := ha
  have hpos := Nat.two_pow_pos e
  have hdvd : 2 ^ e ∣ 2 ^ w := Nat.pow_dvd_pow 2 ((Nat.pow_lt_pow_iff_right (by decide)).1 hfits).le
  obtain ⟨hle, hmod, hleast⟩ := alignUp_spec (value := value) hpos
  constructor
  · intro hlt
    have : 2 ^ e ≤ 2 ^ w - alignUp value (2 ^ e) :=
      Nat.le_of_dvd (by omega) (Nat.dvd_sub hdvd (Nat.dvd_of_mod_eq_zero hmod))
    omega
  · intro hvalue
    have hlast := hleast _ hvalue (Nat.mod_eq_zero_of_dvd (Nat.dvd_sub hdvd (Nat.dvd_refl _)))
    omega

/-- On an alignment that is a power of two and a value in range, P2ALIGN answers (R101). -/
theorem exec_p2align_of_le (hf : s.fcause = 0#4) (hfits : s.cfg.fits alignment) (ha : ∃ e, alignment = 2 ^ e)
    (hvalue : value ≤ 2 ^ s.cfg.w - alignment) :
    exec (.p2align value alignment) s = .next (answered (alignUp value alignment) 0 false s) := by
  rw [exec_p2align hf, if_pos ((ispow2_iff hfits).2 ha), if_neg (not_le.2 ((alignUp_fits_iff hfits ha).2 hvalue))]

/-- On an alignment that is a power of two, P2ALIGND answers (R102). -/
theorem exec_p2alignd_of_two_pow (hf : s.fcause = 0#4) (hfits : s.cfg.fits alignment) (ha : ∃ e, alignment = 2 ^ e) :
    exec (.p2alignd value alignment) s = .next (answered (alignDown value alignment) 0 false s) := by
  rw [exec_p2alignd hf, if_pos ((ispow2_iff hfits).2 ha)]

/-! ### Logarithm and quotient (R103, R104) -/

/-- The floor of log2 of a `w`-bit word is a bit position (R103). -/
theorem log2floor_le_pred {u : Nat} (hu : u < 2 ^ w) : log2floor w u ≤ w - 1 := by
  obtain ⟨hzero, hpos⟩ := log2floor_spec hu
  rcases Nat.eq_zero_or_pos u with h0 | h0
  · exact (hzero h0).trans_le (Nat.zero_le _)
  · have hlt : log2floor w u < w := (Nat.pow_lt_pow_iff_right (by decide)).1 ((hpos h0).1.trans_lt hu)
    omega

/-- On a power of two the logarithm is exact (R103). -/
theorem log2floor_of_eq_two_pow {u e : Nat} (hu : u < 2 ^ w) (h : u = 2 ^ e) : log2floor w u = e := by
  obtain ⟨hle, hlt⟩ := (log2floor_spec hu).2 (h ▸ Nat.two_pow_pos e)
  have hle : log2floor w u ≤ e := (Nat.pow_le_pow_iff_right (by decide)).1 (hle.trans_eq h)
  have hlt : e < log2floor w u + 1 := (Nat.pow_lt_pow_iff_right (by decide)).1 (h.symm.trans_lt hlt)
  omega

theorem exec_ruq_of_pos {dividend divisor : Nat} (hf : s.fcause = 0#4) (hd : 0 < divisor) :
    exec (.ruq dividend divisor) s = .next (answered (roundUpQuotient dividend divisor) 0 false s) := by
  rw [exec_ruq hf, if_neg hd.ne']

/-- The least multiple at or above is the exact ceiling times the alignment (R106). -/
theorem alignUp_eq_mul_roundUpQuotient (ha : 0 < alignment) :
    alignUp value alignment = alignment * roundUpQuotient value alignment := by
  obtain ⟨hle, hmod, hleast⟩ := alignUp_spec (value := value) ha
  obtain ⟨hceil, hceilLeast⟩ := roundUpQuotient_spec (dividend := value) ha
  refine le_antisymm (hleast _ (by rwa [Nat.mul_comm]) (Nat.mul_mod_right _ _)) ?_
  obtain ⟨q, hq⟩ := Nat.dvd_of_mod_eq_zero hmod
  rw [hq] at hle ⊢
  exact Nat.mul_le_mul_left _ (hceilLeast q (by rwa [Nat.mul_comm]))

end

/-! ### The statements of 40_align_pow2.md -/

/-- Settles O31: the last multiple of the alignment that fits is `2^W - alignment`. -/
theorem p2alignResult : Obligations.P2alignResult := by
  refine ⟨fun s value alignment hf hv ha =>
    ⟨encodeCmd_of_formatS rfl, fun hnot => ?_, fun hpow hover => ?_, fun hpow hvalue => ?_⟩,
    unusedBitsFault_of_instr (.p2align 0 0)⟩
  · rw [exec_p2align hf, if_neg fun h => hnot ((ispow2_iff ha).1 h)]
  · have hwide : 2 ^ s.cfg.w ≤ alignUp value alignment :=
      not_lt.1 fun h => absurd ((alignUp_fits_iff ha hpow).1 h) (not_le.2 hover)
    rw [exec_p2align hf, if_pos ((ispow2_iff ha).2 hpow), if_pos hwide]
  · have hfits := (alignUp_fits_iff ha hpow).2 hvalue
    have hexec := exec_p2align_of_le hf ha hpow hvalue
    obtain ⟨e, rfl⟩ := hpow
    obtain ⟨hle, hmod, hleast⟩ := alignUp_spec (value := value) (Nat.two_pow_pos e)
    exact ⟨_, hexec, hfits, hle, hmod, hleast, rfl, alignUp_eq_and hv ha⟩

/-- Settles O32: `value - value mod alignment` clears the bits below the alignment. -/
theorem p2aligndResult : Obligations.P2aligndResult := by
  refine ⟨fun s value alignment hf hv ha => ⟨encodeCmd_of_formatS rfl, fun hnot => ?_, fun hpow => ?_⟩,
    unusedBitsFault_of_instr (.p2alignd 0 0)⟩
  · rw [exec_p2alignd hf, if_neg fun h => hnot ((ispow2_iff ha).1 h)]
  · have hexec := exec_p2alignd_of_two_pow (value := value) hf ha hpow
    obtain ⟨e, rfl⟩ := hpow
    obtain ⟨hle, hmod, hgreatest⟩ := alignDown_spec (value := value) (Nat.two_pow_pos e)
    exact ⟨_, hexec, hle, hmod, hgreatest, rfl, alignDown_eq_and hv ha⟩

/-- Settles O33, from what the loop of R103 computes. -/
theorem log2Result : Obligations.Log2Result := by
  refine ⟨fun s u hf _ hu => ⟨encodeCmd_of_formatS rfl, _, exec_log2 hf u, log2floor_le_pred hu, ?_⟩,
    unusedBitsFault_of_instr (.log2 0)⟩
  exact log2floor_spec hu

/-- Settles O34, from the exact ceiling; the dividend is itself a bound on its quotient. -/
theorem ruqResult : Obligations.RuqResult := by
  refine ⟨fun s dividend divisor hf => ⟨encodeCmd_of_formatS rfl, fun h0 => ?_, fun hpos => ?_⟩,
    unusedBitsFault_of_instr (.ruq 0 0)⟩
  · rw [exec_ruq hf, if_pos h0]
  · obtain ⟨hceil, hleast⟩ := roundUpQuotient_spec (dividend := dividend) hpos
    exact ⟨_, exec_ruq_of_pos hf hpos, hceil, hleast, roundUpQuotient_le hpos.ne', rfl⟩

/-- Settles O35: the word width is a power of two, so shift, mask and alignment are division by it. -/
theorem helperIdentitiesAtTheWordWidth : Obligations.HelperIdentitiesAtTheWordWidth := by
  intro s i ⟨hinv, hf⟩ _
  obtain ⟨hcfg, -⟩ := hinv
  obtain ⟨e, he⟩ := configValid_width_two_pow hcfg
  have hw : 0 < s.cfg.w := by have := configValid_width hcfg; omega
  have hfits : s.cfg.fits s.cfg.w := Nat.lt_two_pow_self
  obtain ⟨hceil, hleast⟩ := roundUpQuotient_spec (dividend := i) hw
  refine ⟨⟨e, ?_, by rw [Nat.shiftRight_eq_div_pow, ← he]⟩, ?_, ?_, _, exec_ruq_of_pos hf hw, hceil, hleast,
    fun hi => ?_⟩
  · rw [exec_log2 hf, log2floor_of_eq_two_pow hfits he]
  · rw [he, Nat.and_two_pow_sub_one_eq_mod]
  · rw [exec_p2alignd_of_two_pow hf hfits ⟨e, he⟩, alignDown, ← Nat.div_mul_self_eq_mod_sub_self]
  · rw [exec_p2align_of_le hf hfits ⟨e, he⟩ hi, alignUp_eq_mul_roundUpQuotient hw]

/-- Settles O30, from R100's definition and its two equivalent forms. -/
theorem ispow2Result : Obligations.Ispow2Result := by
  refine ⟨fun s v hf => ⟨encodeCmd_of_formatS rfl, _, exec_ispow2 hf v, ispow2_iff_unique _ v, fun hv => ?_⟩,
    unusedBitsFault_of_instr (.ispow2 0)⟩
  exact ⟨ispow2_iff_exponent_lt hv, ispow2_iff_and_pred hv⟩

end Sys2Proof.Machine

/-! SUPPORT. Single-word flag testing (41_flag_test.md): what TANY, TALL and BTST answer on an unfaulted unit, and what the
two tests say of the bits of their words. -/

namespace Sys2Proof.Machine

open Sys2Proof.Claims

section

variable {s : State} {w x y : Nat}

/-! ### What each command answers on an unfaulted unit -/

theorem exec_tany (hf : s.fcause = 0#4) (src test : Nat) :
    exec (.tany src test) s = .next (answered 0 0 (flagTany src test) s) :=
  guarded_of_no_selectors hf rfl

theorem exec_tall (hf : s.fcause = 0#4) (src test : Nat) :
    exec (.tall src test) s = .next (answered 0 0 (flagTall src test) s) :=
  guarded_of_no_selectors hf rfl

/-- BTST tests the word that holds the bit with TANY's test (R122, R140). -/
theorem exec_btst_of_lt_cap {b : BankSel} {i : Nat} (hf : s.fcause = 0#4) (hb : b.toNat < s.cfg.nb) (hi : i < s.cfg.cap)
    (hx : memRead b.toNat (i / s.cfg.w) s = some x) :
    exec (.btst b i) s = .next (answered 0 0 (flagTany x (idx s.cfg.w i).2) s) := by
  rw [exec, execBtst, guarded_of_ready hf (by simpa [selectorsOf] using hb), if_neg (not_le.2 hi), idx_fst, hx]
  rfl

/-! ### The two tests, bit by bit (R120, R121) -/

theorem flagTany_iff (src test : Nat) : flagTany src test = true ↔ src &&& test ≠ 0 := decide_eq_true_iff

theorem flagTall_iff (src test : Nat) : flagTall src test = true ↔ src &&& test = test := decide_eq_true_iff

/-- Two words meet exactly when some bit is 1 in both. -/
theorem and_ne_zero_iff_exists_testBit (hy : y < 2 ^ w) :
    x &&& y ≠ 0 ↔ ∃ p, p < w ∧ x.testBit p = true ∧ y.testBit p = true := by
  constructor
  · intro hne
    obtain ⟨p, hp, hbit⟩ := exists_testBit (Nat.and_lt_two_pow x hy) hne
    exact ⟨p, hp, by simpa [Nat.testBit_and] using hbit⟩
  · rintro ⟨p, -, hbit⟩ hzero
    have hand : (x &&& y).testBit p = true := by simpa [Nat.testBit_and] using hbit
    simp [hzero] at hand

/-- A word covers another exactly when it has every 1 bit of it. -/
theorem and_eq_right_iff_forall_testBit (hy : y < 2 ^ w) :
    x &&& y = y ↔ ∀ p, p < w → y.testBit p = true → x.testBit p = true := by
  constructor
  · intro hcover p _ hbit
    rw [← hcover, Nat.testBit_and, Bool.and_eq_true] at hbit
    exact hbit.1
  · intro hall
    refine word_ext (Nat.and_lt_two_pow x hy) hy fun p hp => ?_
    rw [Nat.testBit_and, Bool.and_eq_right_iff_imp]
    exact hall p hp

/-- On a mask with one 1 bit both tests ask for that bit, so they agree (R122). -/
theorem flagTany_two_pow_eq_flagTall (x p : Nat) : flagTany x (2 ^ p) = flagTall x (2 ^ p) := by
  have hpos : 0 ≠ 2 ^ p := (Nat.two_pow_pos p).ne
  rw [Bool.eq_iff_iff, flagTany_iff, flagTall_iff, Nat.and_two_pow]
  cases x.testBit p <;> simp [hpos]

end

/-! ### The statements of 41_flag_test.md -/

/-- Settles O38: BTST is TANY's test on the word that holds the bit, and the mask has one 1 bit. -/
theorem btstMirrorsTheFlagTests : Obligations.BtstMirrorsTheFlagTests := by
  intro s b i x ⟨hinv, hf⟩ hb hi hx
  obtain ⟨hcfg, -⟩ := hinv
  have hw : 0 < s.cfg.w := by have := configValid_width hcfg; omega
  have hbtst := exec_btst_of_lt_cap hf hb hi hx
  rw [idx_snd hw] at hbtst
  exact ⟨by rw [hbtst, exec_tany hf], by rw [hbtst, exec_tall hf, flagTany_two_pow_eq_flagTall]⟩

/-- Settles O36: the words meet where some bit is 1 in both. -/
theorem tanyResult : Obligations.TanyResult := by
  refine ⟨fun s src test hf _ ht => ⟨encodeCmd_of_formatS rfl, _, exec_tany hf src test, flagTany_iff src test, ?_⟩,
    unusedBitsFault_of_instr (.tany 0 0)⟩
  exact (flagTany_iff src test).trans (and_ne_zero_iff_exists_testBit ht)

/-- Settles O37: `src` covers `test` where it has every 1 bit of it. -/
theorem tallResult : Obligations.TallResult := by
  refine ⟨fun s src test hf _ ht => ⟨encodeCmd_of_formatS rfl, _, exec_tall hf src test, flagTall_iff src test, ?_⟩,
    unusedBitsFault_of_instr (.tall 0 0)⟩
  exact (flagTall_iff src test).trans (and_eq_right_iff_forall_testBit ht)

end Sys2Proof.Machine

/-! SUPPORT. The index map (42_bitfield_index.md): `idx` places a bit in a word and at a position of it, the pair tells
every bit from every other, and BFIDX answers it. -/

namespace Sys2Proof.Machine

open Sys2Proof.Claims

section

variable {s : State} {c : Config} {w : Nat}

/-! ### The mask (R132 a, d) -/

/-- The mask of a bit has exactly one 1 bit. -/
theorem ispow2_idx_snd (hw : 0 < c.w) (i : Nat) : ispow2 c.w (idx c.w i).2 = true :=
  (ispow2_iff (fits_idx_snd c i)).2 ⟨_, idx_snd hw i⟩

/-- The mask keeps the position of the bit in its word. -/
theorem log2floor_idx_snd (hw : 0 < c.w) (i : Nat) : log2floor c.w (idx c.w i).2 = i % c.w :=
  log2floor_of_eq_two_pow (fits_idx_snd c i) (idx_snd hw i)

/-- The mask decides the position. -/
theorem idx_snd_inj (hw : 0 < w) {i j : Nat} : (idx w i).2 = (idx w j).2 ↔ i % w = j % w := by
  rw [idx_snd hw, idx_snd hw, Nat.pow_right_inj (by decide)]

/-- Word index and mask together decide the bit: quotient and remainder by the word width do (R132 b). -/
theorem idx_injective (hw : 0 < w) : Function.Injective (idx w) := by
  intro i j h
  obtain ⟨hword, hmask⟩ := Prod.ext_iff.1 h
  exact Nat.ext_div_mod hword ((idx_snd_inj hw).1 hmask)

/-! ### The word index (R132 c) -/

/-- A bit lies in one of the bank's `N` words exactly when it is below `CAP`. -/
theorem idx_fst_lt_iff (hw : 0 < c.w) {i : Nat} : (idx c.w i).1 < c.n ↔ i < c.cap :=
  Nat.div_lt_iff_lt_mul hw

/-- A bit index below `CAP` already implies a word width other than 0, in any configuration. -/
theorem width_pos_of_lt_cap {i : Nat} (hi : i < c.cap) : 0 < c.w :=
  Nat.pos_of_mul_pos_left (Nat.zero_lt_of_lt hi)

/-- The word index of R131 is at most `N - 1`. -/
theorem div_le_pred_of_lt_cap {i : Nat} (hi : i < c.cap) : i / c.w ≤ c.n - 1 :=
  Nat.le_sub_one_of_lt ((idx_fst_lt_iff (width_pos_of_lt_cap hi)).2 hi)

/-! ### The logical bit (R132 e) -/

/-- The word that holds a bit meets the mask of the bit exactly when the bit is 1. -/
theorem logicalBit_iff_and_idx_snd (hw : 0 < s.cfg.w) {b i x : Nat} (hx : memRead b (idx s.cfg.w i).1 s = some x) :
    logicalBit b i s = true ↔ x &&& (idx s.cfg.w i).2 ≠ 0 := by
  have hbit : logicalBit b i s = x.testBit (i % s.cfg.w) := by rw [logicalBit, ← idx_fst, hx, Option.getD_some]
  rw [hbit, idx_snd hw, Nat.and_two_pow]
  cases x.testBit (i % s.cfg.w) <;> simp

/-! ### What BFIDX answers on an unfaulted unit (R131) -/

theorem exec_bfidx (hf : s.fcause = 0#4) (i : Nat) : exec (.bfidx i) s =
    if s.cfg.cap ≤ i then .next (faultEntered 3#4 0x00000008#32 s)
    else .next (answered (idx s.cfg.w i).1 (idx s.cfg.w i).2 false s) := by
  rw [exec, execBfidx, guarded_of_no_selectors hf rfl, faultOf_of_formatS rfl]
  rfl

theorem exec_bfidx_of_lt_cap (hf : s.fcause = 0#4) {i : Nat} (hi : i < s.cfg.cap) :
    exec (.bfidx i) s = .next (answered (i / s.cfg.w) (2 ^ (i % s.cfg.w)) false s) := by
  rw [exec_bfidx hf, if_neg (not_le.2 hi), idx_fst, idx_snd (width_pos_of_lt_cap hi)]

end

/-! ### The statements of 42_bitfield_index.md -/

/-- Settles O40: the mask is `2^(i mod W)`, so the pair is quotient and remainder of `i` by the word width. -/
theorem indexMapProperties : Obligations.IndexMapProperties := by
  intro s b i j hcfg
  have hw : 0 < s.cfg.w := by have := configValid_width hcfg; omega
  have hword : (idx s.cfg.w i).1 < s.cfg.n ↔ i < s.cfg.cap := idx_fst_lt_iff hw
  refine ⟨⟨ispow2_idx_snd hw i, log2floor_idx_snd hw i⟩, fun h => idx_injective hw h,
    ⟨hword.2, ?atCap, fun habove => not_lt.1 fun h => absurd (hword.1 h) habove.not_gt⟩,
    fun hsame hne hmask => hne (idx_injective hw (Prod.ext hsame hmask)), fun x hx => logicalBit_iff_and_idx_snd hw hx⟩
  case atCap =>
    rintro rfl
    exact ⟨Nat.mul_div_left _ hw, Nat.mul_mod_left _ _⟩

/-- Settles O39: below `CAP` the answer is `idx`, from `CAP` on it is fault entry. -/
theorem bfidxResult : Obligations.BfidxResult := by
  refine ⟨fun s i hf => ⟨encodeCmd_of_formatS rfl, fun hi => ?_, fun hi => ?_⟩, unusedBitsFault_of_instr (.bfidx 0)⟩
  · exact ⟨exec_bfidx_of_lt_cap hf hi, div_le_pred_of_lt_cap hi⟩
  · rw [exec_bfidx hf, if_pos hi]

end Sys2Proof.Machine

/-! SUPPORT. Test, set, clear (43_bitfield_mutation.md): what BTST answers, that BSET and BCLR write the one word that holds
the bit, and that on the logical bits of the store they write that one bit. -/

namespace Sys2Proof.Machine

open Sys2Proof.Claims

section

variable {s t : State} {i : Instr} {body : Result} {rd : BankSel} {j b : Nat} {f : Nat → Nat → Nat} {v : Bool}

/-! ### The command word of a format with one selector (R61, R62) -/

theorem packCmd_ra_toNat (ra : BankSel) (op : BitVec 8) : (packCmd 0#4 ra 0#4 op).toNat = op.toNat + 4096 * ra.toNat := by
  simp [packCmd_toNat]

theorem packCmd_rd_toNat (rd : BankSel) (op : BitVec 8) : (packCmd 0#4 0#4 rd op).toNat = op.toNat + 256 * rd.toNat := by
  simp [packCmd_toNat]

/-! ### The checks of a command with one selector (R66, R202) -/

theorem exec_of_selector_bankRange (hf : s.fcause = 0#4) (hsel : selectorsOf i = [rd]) (hb : s.cfg.nb ≤ rd.toNat) :
    exec i s = .next (faultEntered 2#4 (encodeCmd i) s) :=
  exec_of_bankRange hf (by simpa [hsel] using hb)

theorem guarded_of_selector (hf : s.fcause = 0#4) (hsel : selectorsOf i = [rd]) (hb : rd.toNat < s.cfg.nb) :
    guarded i s body = body :=
  guarded_of_ready hf (by simpa [hsel] using hb)

/-- With the selector in range, an index that fails its check is fault entry with `INDEX_RANGE` (R203). -/
theorem guarded_of_indexRange {p : Prop} [Decidable p] (hf : s.fcause = 0#4) (hsel : selectorsOf i = [rd])
    (hb : rd.toNat < s.cfg.nb) (hp : p) :
    guarded i s (if p then faultOf .indexRange i s else body) = .next (faultEntered 3#4 (encodeCmd i) s) := by
  rw [guarded_of_selector hf hsel hb, if_pos hp, faultOf, raiseFault_eq_faultEntered, causeCode]

/-! ### BTST answers the logical bit (R140) -/

theorem exec_btst_eq_logicalBit (hf : s.fcause = 0#4) (hwf : Memory.wf s.cfg s.bf = true) (hb : rd.toNat < s.cfg.nb)
    (hj : j < s.cfg.cap) : exec (.btst rd j) s = .next (answered 0 0 (logicalBit rd.toNat j s) s) := by
  have hw := width_pos_of_lt_cap hj
  obtain ⟨x, hx, -⟩ := memRead_of_wf hwf hb ((idx_fst_lt_iff hw).2 hj)
  have hflag : flagTany x (idx s.cfg.w j).2 = logicalBit rd.toNat j s :=
    Bool.eq_iff_iff.2 ((flagTany_iff _ _).trans (logicalBit_iff_and_idx_snd hw hx).symm)
  rw [exec_btst_of_lt_cap hf hb hj hx, hflag]

/-! ### BSET and BCLR write one word (R141, R142) -/

/-- `t` is `s` after a command that answers nothing and replaces the word `x` of bank `b` that holds bit `j` by
`f x (2^(j mod W))`. -/
def BitModified (f : Nat → Nat → Nat) (b j : Nat) (s t : State) (x : Nat) : Prop :=
  t = answered 0 0 false { s with bf := t.bf } ∧ memRead b (j / s.cfg.w) s = some x ∧
    ∀ b' k, memRead b' k t = if b' = b ∧ k = j / s.cfg.w then some (f x (2 ^ (j % s.cfg.w))) else memRead b' k s

/-- The shared read-modify-write runs to its end in a store that holds the bit. -/
theorem modifyBit_bitModified (hwf : Memory.wf s.cfg s.bf = true) (hb : rd.toNat < s.cfg.nb) (hj : j < s.cfg.cap) :
    ∃ t x, modifyBit f rd j s = .next t ∧ BitModified f rd.toNat j s t x := by
  have hw := width_pos_of_lt_cap hj
  have hsome := (memRead_isSome_iff hwf).2 ⟨hb, (idx_fst_lt_iff hw).2 hj⟩
  obtain ⟨t, ht⟩ := IsNext.modifyBit (f := f) hsome
  obtain ⟨x, u, hx, hu, rfl⟩ := modifyBit_next ht
  obtain ⟨hframe, -, hread⟩ := memWrite_spec hu
  rw [idx_snd hw] at hread
  exact ⟨_, x, ht, congrArg (answered 0 0 false) hframe, hx, hread⟩

theorem exec_bset_bitModified (hf : s.fcause = 0#4) (hwf : Memory.wf s.cfg s.bf = true) (hb : rd.toNat < s.cfg.nb)
    (hj : j < s.cfg.cap) : ∃ t x, exec (.bset rd j) s = .next t ∧ BitModified (fun x m => x ||| m) rd.toNat j s t x := by
  rw [exec, execBset, guarded_of_selector hf rfl hb, if_neg (not_le.2 hj)]
  exact modifyBit_bitModified hwf hb hj

theorem exec_bclr_bitModified (hf : s.fcause = 0#4) (hwf : Memory.wf s.cfg s.bf = true) (hb : rd.toNat < s.cfg.nb)
    (hj : j < s.cfg.cap) :
    ∃ t x, exec (.bclr rd j) s = .next t ∧ BitModified (fun x m => x &&& wordNot s.cfg.w m) rd.toNat j s t x := by
  rw [exec, execBclr, guarded_of_selector hf rfl hb, if_neg (not_le.2 hj)]
  exact modifyBit_bitModified hwf hb hj

/-! ### On the logical bits of the store they write one bit (R143) -/

/-- On `w`-bit words `f` with a one-bit mask makes that bit `v` and leaves the others. -/
def WritesMaskedBit (w : Nat) (f : Nat → Nat → Nat) (v : Bool) : Prop :=
  ∀ x p q, p < w → q < w → (f x (2 ^ q)).testBit p = if p = q then v else x.testBit p

theorem writesMaskedBit_or (w : Nat) : WritesMaskedBit w (fun x m => x ||| m) true := by
  intro x p q _ _
  rw [Nat.testBit_or, Nat.testBit_two_pow]
  by_cases h : p = q
  · simp [h]
  · simp [h, Ne.symm h]

theorem writesMaskedBit_and_wordNot (w : Nat) : WritesMaskedBit w (fun x m => x &&& wordNot w m) false := by
  intro x p q hp hq
  rw [Nat.testBit_and, testBit_wordNot (Nat.pow_lt_pow_right (by decide) hq), Nat.testBit_two_pow]
  by_cases h : p = q
  · simp [h]
  · simp [h, Ne.symm h, hp]

/-- A read-modify-write with such an `f` writes the logical bit `j` of the bank and leaves every other bit of the store: word
and position together decide the bit. -/
theorem BitModified.logicalBit_eq {x : Nat} (h : BitModified f b j s t x) (hw : 0 < s.cfg.w)
    (hv : WritesMaskedBit s.cfg.w f v) (b' k : Nat) :
    logicalBit b' k t = if b' = b ∧ k = j then v else logicalBit b' k s := by
  obtain ⟨hframe, hx, hread⟩ := h
  have hcfg : t.cfg = s.cfg := by rw [hframe]; rfl
  rw [logicalBit, hcfg, hread]
  by_cases hword : b' = b ∧ k / s.cfg.w = j / s.cfg.w
  · obtain ⟨rfl, hdiv⟩ := hword
    have hpos : k % s.cfg.w = j % s.cfg.w ↔ k = j := ⟨Nat.ext_div_mod hdiv, congrArg (· % s.cfg.w)⟩
    have hold : logicalBit b' k s = x.testBit (k % s.cfg.w) := by rw [logicalBit, hdiv, hx, Option.getD_some]
    rw [if_pos ⟨rfl, hdiv⟩, Option.getD_some, hv x _ _ (Nat.mod_lt k hw) (Nat.mod_lt j hw), hold]
    simp [hpos]
  · have hbit : ¬(b' = b ∧ k = j) := by
      rintro ⟨rfl, rfl⟩
      exact hword ⟨rfl, rfl⟩
    rw [if_neg hword, if_neg hbit, logicalBit]

/-- What BSET and BCLR do to a ready unit: it stays ready, and of its logical bits the bit `j` of bank `b` alone is
written. -/
def LogicalBitWritten (b j : Nat) (v : Bool) (s t : State) : Prop :=
  t.Ready ∧ t.cfg = s.cfg ∧ ∀ b' k, logicalBit b' k t = if b' = b ∧ k = j then v else logicalBit b' k s

theorem BitModified.logicalBitWritten {x : Nat} (hs : s.Ready) (hi : i.wellFormed s.cfg = true) (h : exec i s = .next t)
    (hmod : BitModified f b j s t x) (hv : WritesMaskedBit s.cfg.w f v) : LogicalBitWritten b j v s t := by
  have ⟨hinv, hf⟩ := hs
  have ⟨hcfg, _⟩ := hinv
  have ⟨hframe, _⟩ := hmod
  have hw : 0 < s.cfg.w := by have := configValid_width hcfg; omega
  have hfcause : t.fcause = s.fcause := by rw [hframe]; rfl
  exact ⟨⟨exec_keeps_inv hinv hi h, hfcause.trans hf⟩, (exec_keeps_cfg_pending h).1, hmod.logicalBit_eq hw hv⟩

theorem exec_bset_logicalBitWritten (hs : s.Ready) (hb : rd.toNat < s.cfg.nb) (hj : j < s.cfg.cap) :
    ∃ t, exec (.bset rd j) s = .next t ∧ LogicalBitWritten rd.toNat j true s t := by
  have ⟨⟨hcfg, hwf, _⟩, hf⟩ := hs
  have hi : (Instr.bset rd j).wellFormed s.cfg = true := decide_eq_true (fits_of_lt_cap hcfg hj).1
  obtain ⟨t, x, ht, hmod⟩ := exec_bset_bitModified hf hwf hb hj
  exact ⟨t, ht, hmod.logicalBitWritten hs hi ht (writesMaskedBit_or _)⟩

theorem exec_bclr_logicalBitWritten (hs : s.Ready) (hb : rd.toNat < s.cfg.nb) (hj : j < s.cfg.cap) :
    ∃ t, exec (.bclr rd j) s = .next t ∧ LogicalBitWritten rd.toNat j false s t := by
  have ⟨⟨hcfg, hwf, _⟩, hf⟩ := hs
  have hi : (Instr.bclr rd j).wellFormed s.cfg = true := decide_eq_true (fits_of_lt_cap hcfg hj).1
  obtain ⟨t, x, ht, hmod⟩ := exec_bclr_bitModified hf hwf hb hj
  exact ⟨t, ht, hmod.logicalBitWritten hs hi ht (writesMaskedBit_and_wordNot _)⟩

/-- BTST of the bit just written answers what was written. -/
theorem LogicalBitWritten.exec_btst (h : LogicalBitWritten rd.toNat j v s t) (hb : rd.toNat < s.cfg.nb)
    (hj : j < s.cfg.cap) : exec (.btst rd j) t = .next (answered 0 0 v t) := by
  obtain ⟨⟨⟨-, hwf, -⟩, hf⟩, hcfg, hbit⟩ := h
  rw [← hcfg] at hb hj
  rw [exec_btst_eq_logicalBit hf hwf hb hj, hbit, if_pos ⟨rfl, rfl⟩]

/-- Every other bit of every bank is as before. -/
theorem LogicalBitWritten.frame {b' k : Nat} (h : LogicalBitWritten b j v s t) (hne : b' ≠ b ∨ k ≠ j) :
    logicalBit b' k t = logicalBit b' k s := by
  obtain ⟨-, -, hbit⟩ := h
  rw [hbit, if_neg (not_and_or.2 hne)]

end

/-! ### The statements of 43_bitfield_mutation.md -/

/-- Settles O41: the word of a bit meets the mask of the bit where the bit is 1. -/
theorem btstResult : Obligations.BtstResult := by
  refine ⟨fun s ra i hf hwf => ⟨packCmd_ra_toNat ra _, fun hb hi => exec_btst_eq_logicalBit hf hwf hb hi,
    fun hb => exec_of_selector_bankRange hf rfl hb,
    fun hb hi => guarded_of_indexRange hf rfl hb hi⟩, unusedBitsFault_of_instr (.btst 0 0)⟩

/-- Settles O42, from what the shared read-modify-write does with the OR of the mask. -/
theorem bsetResult : Obligations.BsetResult := by
  refine ⟨fun s rd i hf hwf => ⟨packCmd_rd_toNat rd _, fun hb hi => exec_bset_bitModified hf hwf hb hi,
    fun hb => exec_of_selector_bankRange hf rfl hb,
    fun hb hi => guarded_of_indexRange hf rfl hb hi⟩, unusedBitsFault_of_instr (.bset 0 0)⟩

/-- Settles O43, from what the shared read-modify-write does with the AND of the complemented mask. -/
theorem bclrResult : Obligations.BclrResult := by
  refine ⟨fun s rd i hf hwf => ⟨packCmd_rd_toNat rd _, fun hb hi => exec_bclr_bitModified hf hwf hb hi,
    fun hb => exec_of_selector_bankRange hf rfl hb,
    fun hb hi => guarded_of_indexRange hf rfl hb hi⟩, unusedBitsFault_of_instr (.bclr 0 0)⟩

/-- Settles O44: BSET writes 1 and BCLR 0 to the one logical bit, and a unit they leave is ready again. -/
theorem bitMutationLaws : Obligations.BitMutationLaws := by
  intro s b i hs hb hi
  have ⟨⟨_, hwf, _⟩, hf⟩ := hs
  obtain ⟨t, ht, hset⟩ := exec_bset_logicalBitWritten hs hb hi
  have ⟨htReady, htcfg, _⟩ := hset
  have hbt : b.toNat < t.cfg.nb := htcfg ▸ hb
  have hit : i < t.cfg.cap := htcfg ▸ hi
  obtain ⟨u, hu, hclr⟩ := exec_bclr_logicalBitWritten htReady hbt hit
  obtain ⟨c, hc, hclr'⟩ := exec_bclr_logicalBitWritten hs hb hi
  exact ⟨⟨t, u, c, ht, hset.exec_btst hb hi, hu, hclr.exec_btst hbt hit, hc,
    fun b' j _ _ hne => ⟨hset.frame hne, hclr'.frame hne⟩⟩, _, exec_btst_eq_logicalBit hf hwf hb hi⟩

end Sys2Proof.Machine

/-! SUPPORT. Bulk combine (44_bulk_combine.md): BAND and BXOR are one sweep with two operations, so what the sweep leaves is
said once for any operation, and the laws of R152 and R153 come from the operation's own. -/

namespace Sys2Proof.Machine

open Sys2Proof.Claims

section

variable {s t : State} {i : Instr} {rd ra rb : BankSel} {op : Nat → Nat → Nat} {d a b j k e : Nat}

/-! ### The three selectors (R66) -/

theorem exec_of_three_selectors_bankRange (hf : s.fcause = 0#4) (hsel : selectorsOf i = [rd, ra, rb])
    (hb : s.cfg.nb ≤ rd.toNat ∨ s.cfg.nb ≤ ra.toNat ∨ s.cfg.nb ≤ rb.toNat) :
    exec i s = .next (faultEntered 2#4 (encodeCmd i) s) :=
  exec_of_bankRange hf (by simpa [hsel] using hb)

/-- All three selectors name a bank. -/
abbrev BanksExist (s : State) (rd ra rb : BankSel) : Prop := ∀ sel ∈ [rd, ra, rb], sel.toNat < s.cfg.nb

theorem banksExist_of_lt (hd : rd.toNat < s.cfg.nb) (ha : ra.toNat < s.cfg.nb) (hb : rb.toNat < s.cfg.nb) :
    BanksExist s rd ra rb := by
  simp [BanksExist, hd, ha, hb]

theorem exec_band (hf : s.fcause = 0#4) (hsel : BanksExist s rd ra rb) :
    exec (.band rd ra rb) s = combineBanks (fun x y => x &&& y) rd ra rb s :=
  guarded_of_ready hf hsel

theorem exec_bxor (hf : s.fcause = 0#4) (hsel : BanksExist s rd ra rb) :
    exec (.bxor rd ra rb) s = combineBanks (fun x y => x ^^^ y) rd ra rb s :=
  guarded_of_ready hf hsel

/-! ### What the sweep leaves (R150, R151) -/

/-- `t` is `s` after a command that answers nothing and replaces each word of bank `d` by `op` of the same words of the banks
`a` and `b`, read before the command. -/
def Combined (op : Nat → Nat → Nat) (d a b : Nat) (s t : State) : Prop :=
  t = answered 0 0 false { s with bf := t.bf } ∧
    (∀ k, k < s.cfg.n → ∃ x y, memRead a k s = some x ∧ memRead b k s = some y ∧ memRead d k t = some (op x y)) ∧
    ∀ b' k, b' ≠ d ∨ s.cfg.n ≤ k → memRead b' k t = memRead b' k s

/-- The sweep over existing banks runs to its end, whatever aliases. -/
theorem combineBanks_combined (hwf : Memory.wf s.cfg s.bf = true) (hsel : BanksExist s rd ra rb) :
    ∃ t, combineBanks op rd ra rb s = .next t ∧ Combined op rd.toNat ra.toNat rb.toNat s t := by
  obtain ⟨t, ht⟩ := IsNext.combineBanks (op := op) hwf hsel
  obtain ⟨u, hu, rfl⟩ := combineBanks_next ht
  obtain ⟨hframe, hswept, hrest⟩ := combineFrom_spec hu
  exact ⟨_, ht, congrArg (answered 0 0 false) hframe, fun k hk => hswept k (Nat.zero_le k) (by omega),
    fun b' k hout => hrest b' k (by omega)⟩

theorem exec_band_combined (hf : s.fcause = 0#4) (hwf : Memory.wf s.cfg s.bf = true) (hsel : BanksExist s rd ra rb) :
    ∃ t, exec (.band rd ra rb) s = .next t ∧ Combined (fun x y => x &&& y) rd.toNat ra.toNat rb.toNat s t := by
  rw [exec_band hf hsel]
  exact combineBanks_combined hwf hsel

theorem exec_bxor_combined (hf : s.fcause = 0#4) (hwf : Memory.wf s.cfg s.bf = true) (hsel : BanksExist s rd ra rb) :
    ∃ t, exec (.bxor rd ra rb) s = .next t ∧ Combined (fun x y => x ^^^ y) rd.toNat ra.toNat rb.toNat s t := by
  rw [exec_bxor hf hsel]
  exact combineBanks_combined hwf hsel

/-! ### Its logical bits (R152 d) -/

/-- An operation that acts bit by bit on words acts bit by bit on banks. -/
theorem Combined.logicalBit_eq {g : Bool → Bool → Bool} (h : Combined op d a b s t) (hj : j < s.cfg.cap)
    (hop : ∀ x y p, (op x y).testBit p = g (x.testBit p) (y.testBit p)) :
    logicalBit d j t = g (logicalBit a j s) (logicalBit b j s) := by
  obtain ⟨hframe, hswept, -⟩ := h
  have hcfg : t.cfg = s.cfg := by rw [hframe]; rfl
  obtain ⟨x, y, hx, hy, hxy⟩ := hswept _ ((idx_fst_lt_iff (width_pos_of_lt_cap hj)).2 hj)
  simp only [idx_fst] at hx hy hxy
  simp only [logicalBit, hcfg, hx, hy, hxy, Option.getD_some, hop]

/-! ### Its laws (R153) -/

/-- A bank combined with itself gives words all 0 when every word with itself gives 0. -/
theorem Combined.memRead_of_op_self (h : Combined op d a a s t) (hop : ∀ x, op x x = 0) (hk : k < s.cfg.n) :
    memRead d k t = some 0 := by
  obtain ⟨-, hswept, -⟩ := h
  obtain ⟨x, y, hx, hy, hxy⟩ := hswept k hk
  obtain rfl : x = y := Option.some.inj (hx.symm.trans hy)
  rw [hxy, hop]

/-- A word that is neutral on the right copies the other source's word, which fits `W` bits. -/
theorem Combined.memRead_of_right_neutral (h : Combined op d a b s t) (hwf : Memory.wf s.cfg s.bf = true)
    (hk : k < s.cfg.n) (hb : memRead b k s = some e) (hop : ∀ x, s.cfg.fits x → op x e = x) :
    memRead d k t = memRead a k s := by
  obtain ⟨-, hswept, -⟩ := h
  obtain ⟨x, y, hx, hy, hxy⟩ := hswept k hk
  obtain rfl : y = e := Option.some.inj (hy.symm.trans hb)
  rw [hxy, hx, hop x (memRead_fits hwf hx)]

/-- A sweep with a commutative operation may read its two sources in either order. -/
theorem combineFrom_comm (hop : ∀ x y, op x y = op y x) (d a b : Nat) :
    ∀ count k s, combineFrom op d a b count k s = combineFrom op d b a count k s := by
  intro count
  induction count with
  | zero => exact fun _ _ => rfl
  | succ count ih =>
    intro k s
    rw [combineFrom, combineFrom, Option.bind_comm]
    simp only [hop, ih]

theorem combineBanks_comm (hop : ∀ x y, op x y = op y x) : combineBanks op rd ra rb s = combineBanks op rd rb ra s := by
  rw [combineBanks, combineBanks, combineFrom_comm hop]

end

/-! ### The statements of 44_bulk_combine.md -/

/-- Settles O45, from what the sweep leaves with AND. -/
theorem bandResult : Obligations.BandResult :=
  ⟨fun _ rd ra rb hf hwf => ⟨packCmd_toNat rb ra rd _,
    fun hd ha hb => exec_band_combined hf hwf (banksExist_of_lt hd ha hb),
    fun hout => exec_of_three_selectors_bankRange hf rfl hout⟩, unusedBitsFault_of_instr (.band 0 0 0)⟩

/-- Settles O46, from what the sweep leaves with exclusive OR. -/
theorem bxorResult : Obligations.BxorResult :=
  ⟨fun _ rd ra rb hf hwf => ⟨packCmd_toNat rb ra rd _,
    fun hd ha hb => exec_bxor_combined hf hwf (banksExist_of_lt hd ha hb),
    fun hout => exec_of_three_selectors_bankRange hf rfl hout⟩, unusedBitsFault_of_instr (.bxor 0 0 0)⟩

/-- Settles O47: AND and exclusive OR of words act bit by bit. -/
theorem combineActsOnLogicalBits : Obligations.CombineActsOnLogicalBits := by
  intro s t u rd ra rb i ⟨⟨_, hwf, _⟩, hf⟩ hd ha hb hi hband hbxor
  have hsel := banksExist_of_lt hd ha hb
  obtain ⟨t', ht', hand⟩ := exec_band_combined hf hwf hsel
  obtain ⟨u', hu', hxor⟩ := exec_bxor_combined hf hwf hsel
  obtain rfl : t' = t := Host.Outcome.next.inj (ht'.symm.trans hband)
  obtain rfl : u' = u := Host.Outcome.next.inj (hu'.symm.trans hbxor)
  exact ⟨hand.logicalBit_eq hi Nat.testBit_and, hxor.logicalBit_eq hi Nat.testBit_xor⟩

/-- Settles O48, from the same laws of AND and exclusive OR on words. -/
theorem combineLaws : Obligations.CombineLaws := by
  intro s rd ra rb ⟨⟨_, hwf, _⟩, hf⟩ hd ha hb
  have hsel := banksExist_of_lt hd ha hb
  have hswap := banksExist_of_lt hd hb ha
  refine ⟨?clears, fun hones => ?copies, ?andComm, ?xorComm⟩
  case clears =>
    obtain ⟨t, ht, hxor⟩ := exec_bxor_combined hf hwf (banksExist_of_lt hd ha ha)
    exact ⟨t, ht, fun k hk => hxor.memRead_of_op_self Nat.xor_self hk⟩
  case copies =>
    obtain ⟨t, ht, hand⟩ := exec_band_combined hf hwf hsel
    exact ⟨t, ht, fun k hk =>
      hand.memRead_of_right_neutral hwf hk (hones k hk) fun _ => Nat.and_two_pow_sub_one_of_lt_two_pow⟩
  case andComm => rw [exec_band hf hsel, exec_band hf hswap, combineBanks_comm Nat.and_comm]
  case xorComm => rw [exec_bxor hf hsel, exec_bxor hf hswap, combineBanks_comm Nat.xor_comm]

end Sys2Proof.Machine

/-! SUPPORT. Forward scan (45_forward_scan.md): `ffs`; the first word that is not 0 of a row of words, which the carry chain
(R167) and the lanes (R168) both look for; SCANF as that chain and as the least set bit; the host's enumeration loop. -/

namespace Sys2Proof.Machine

open Sys2Proof.Claims

section

variable {w x p n k j : Nat} {f : Nat → Nat}

/-! ### `ffs` (R160) -/

theorem ffs_zero (w : Nat) : ffs w 0 = 0 := by
  have hnone : ((List.range w).find? fun p => Nat.testBit 0 p) = none := by simp
  rw [ffs, hnone]

theorem ffs_of_least (hp : p < w) (hbit : x.testBit p = true) (hbelow : ∀ q, q < p → x.testBit q = false) :
    ffs w x = p + 1 := by
  have hfound : ((List.range w).find? fun p => x.testBit p) = some p :=
    List.find?_range_eq_some.2 ⟨hbit, List.mem_range.2 hp, fun q hq => by rw [hbelow q hq]; rfl⟩
  rw [ffs, hfound, Nat.add_comm]

theorem exists_least_testBit (hx : x < 2 ^ w) (h0 : x ≠ 0) :
    ∃ p, p < w ∧ x.testBit p = true ∧ ∀ q, q < p → x.testBit q = false := by
  have hex : ∃ p, p < w ∧ x.testBit p = true := exists_testBit hx h0
  obtain ⟨hp, hbit⟩ := Nat.find_spec hex
  refine ⟨Nat.find hex, hp, hbit, fun q hq => ?_⟩
  have hnot := Nat.find_min hex hq
  rw [not_and, Bool.not_eq_true] at hnot
  exact hnot (hq.trans hp)

/-! ### The first word that is not 0 in a row of `w`-bit words (R162, R167, R168)

Bit `j` of the row is bit `j mod w` of word `j div w`. -/

/-- The first word of the row that is not 0, among the first `n`. -/
def firstNonzero (f : Nat → Nat) (n : Nat) : Option Nat := (List.range n).find? fun k => f k != 0

/-- The index of its least set bit, as `ffs` gives it. -/
def firstBit (w n : Nat) (f : Nat → Nat) : Option Nat := (firstNonzero f n).map fun k => k * w + ffs w (f k) - 1

theorem firstNonzero_eq_some_iff : firstNonzero f n = some k ↔ f k ≠ 0 ∧ k < n ∧ ∀ q, q < k → f q = 0 := by
  simp [firstNonzero, List.find?_range_eq_some]

theorem firstNonzero_eq_none_iff : firstNonzero f n = none ↔ ∀ k, k < n → f k = 0 := by
  simp [firstNonzero]

theorem word_eq_zero_of_bits (hfit : f k < 2 ^ w)
    (h : 0 < w → ∀ j, j / w = k → (f (j / w)).testBit (j % w) = false) : f k = 0 := by
  by_contra hne
  obtain ⟨p, hp, hbit⟩ := exists_testBit hfit hne
  have hw : 0 < w := Nat.zero_lt_of_lt hp
  have hdiv : (k * w + p) / w = k := by
    rw [Nat.add_comm, Nat.add_mul_div_right _ _ hw, Nat.div_eq_of_lt hp, Nat.zero_add]
  have hclear := h hw _ hdiv
  rw [hdiv, Nat.mul_add_mod', Nat.mod_eq_of_lt hp, hbit] at hclear
  cases hclear

/-- Bit `j` is the least set bit of the row: its word is the first that is not 0, and `ffs` gives its position there. -/
theorem firstNonzero_of_least_bit (hfit : ∀ k, f k < 2 ^ w) (hj : j < n * w)
    (hbit : (f (j / w)).testBit (j % w) = true) (hbelow : ∀ i, i < j → (f (i / w)).testBit (i % w) = false) :
    firstNonzero f n = some (j / w) ∧ ffs w (f (j / w)) = j % w + 1 := by
  have hw : 0 < w := Nat.pos_of_mul_pos_left (Nat.zero_lt_of_lt hj)
  refine ⟨firstNonzero_eq_some_iff.2 ⟨fun h0 => ?_, (Nat.div_lt_iff_lt_mul hw).2 hj, fun q hq => ?_⟩,
    ffs_of_least (Nat.mod_lt j hw) hbit fun q hq => ?_⟩
  · rw [h0, Nat.zero_testBit] at hbit
    cases hbit
  · exact word_eq_zero_of_bits (hfit q) fun _ i hi => hbelow i (Nat.lt_of_div_lt_div (hi.trans_lt hq))
  · have hdm := Nat.div_add_mod' j w
    have hclear := hbelow (j / w * w + q) (by omega)
    have hqw : q < w := hq.trans (Nat.mod_lt j hw)
    rwa [Nat.mul_add_mod', Nat.mod_eq_of_lt hqw, Nat.add_comm, Nat.add_mul_div_right _ _ hw, Nat.div_eq_of_lt hqw,
      Nat.zero_add] at hclear

theorem firstBit_of_least_bit (hfit : ∀ k, f k < 2 ^ w) (hj : j < n * w)
    (hbit : (f (j / w)).testBit (j % w) = true) (hbelow : ∀ i, i < j → (f (i / w)).testBit (i % w) = false) :
    firstBit w n f = some j := by
  obtain ⟨hfirst, hffs⟩ := firstNonzero_of_least_bit hfit hj hbit hbelow
  have hdm := Nat.div_add_mod' j w
  rw [firstBit, hfirst, Option.map_some, hffs, ← Nat.add_assoc, Nat.add_sub_cancel, hdm]

theorem firstBit_of_no_bit (hfit : ∀ k, f k < 2 ^ w) (hclear : ∀ j, j < n * w → (f (j / w)).testBit (j % w) = false) :
    firstBit w n f = none := by
  have hzero : firstNonzero f n = none := firstNonzero_eq_none_iff.2 fun k hk =>
    word_eq_zero_of_bits (hfit k) fun hw j hj => hclear j ((Nat.div_lt_iff_lt_mul hw).1 (hj.trans_lt hk))
  rw [firstBit, hzero, Option.map_none]

/-- The loop of R161 over the words of a row from word `k` on. -/
theorem scanWords_map_range' (w : Nat) (f : Nat → Nat) (m k : Nat) :
    scanWords w k ((List.range' k m).map f) =
      ((List.range' k m).find? fun q => f q != 0).map fun q => q * w + ffs w (f q) - 1 := by
  induction m generalizing k with
  | zero => rfl
  | succ m ih =>
    rw [List.range'_succ, List.map_cons, scanWords, ih]
    by_cases hk : f k = 0
    · simp [hk]
    · simp [hk]

/-- Words that are 0 may be left out in front. -/
theorem firstBit_eq_scanWords (hkn : k ≤ n) (hzero : ∀ q, q < k → f q = 0) :
    firstBit w n f = scanWords w k ((List.range' k (n - k)).map f) := by
  have hsplit : List.range n = List.range k ++ List.range' k (n - k) := by
    have := List.range'_append_1 (s := 0) (m := k) (n := n - k)
    rw [Nat.zero_add, Nat.add_sub_cancel' hkn] at this
    rw [List.range_eq_range', List.range_eq_range', this]
  have hnone : ((List.range k).find? fun q => f q != 0) = none := firstNonzero_eq_none_iff.2 hzero
  rw [scanWords_map_range', firstBit, firstNonzero, hsplit, List.find?_append, hnone, Option.none_or]

end

/-- Settles O49: a word other than 0 has a least set bit, and `ffs` is 1 more than its position. -/
theorem ffsFindsTheLeastSetBit : Obligations.FfsFindsTheLeastSetBit := by
  intro w x hx
  refine ⟨?zero, fun h0 => ?nonzero⟩
  case zero =>
    rintro rfl
    exact ffs_zero w
  case nonzero =>
    obtain ⟨p, hp, hbit, hbelow⟩ := exists_least_testBit hx h0
    rw [ffs_of_least hp hbit hbelow, Nat.add_sub_cancel]
    exact ⟨Nat.le_add_left 1 p, hp, hbit, hbelow⟩

section

variable {s : State} {ra : BankSel} {b c k j : Nat}

/-! ### The words of the carry chain (R164, R167) -/

theorem chainWord_of_lt (hk : k < c / s.cfg.w) : chainWord s b c k = 0 := if_pos hk

theorem chainWord_at_cursor : chainWord s b c (c / s.cfg.w) =
    (memRead b (c / s.cfg.w) s).getD 0 &&& wordShl s.cfg.w (allOnes s.cfg.w) (c % s.cfg.w) := by
  rw [chainWord, if_neg (lt_irrefl _), if_pos rfl]
  rfl

theorem chainWord_of_gt (hk : c / s.cfg.w < k) : chainWord s b c k = (memRead b k s).getD 0 := by
  rw [chainWord, if_neg (not_lt.2 hk.le), if_neg hk.ne']

theorem chainWord_fits (hwf : Memory.wf s.cfg s.bf = true) : s.cfg.fits (chainWord s b c k) := by
  have hword : s.cfg.fits ((memRead b k s).getD 0) := by
    cases hx : memRead b k s with
    | none => exact fits_zero _
    | some x => exact memRead_fits hwf hx
  rcases Nat.lt_trichotomy k (c / s.cfg.w) with hk | rfl | hk
  · rw [chainWord_of_lt hk]; exact fits_zero _
  · rw [chainWord_at_cursor]; exact fits_of_le Nat.and_le_left hword
  · rw [chainWord_of_gt hk]; exact hword

/-- The eligible bits are the bits of the bank from the cursor on (R162). -/
theorem testBit_chainWord (hw : 0 < s.cfg.w) : (chainWord s b c (j / s.cfg.w)).testBit (j % s.cfg.w) =
    (decide (c ≤ j) && logicalBit b j s) := by
  rcases Nat.lt_trichotomy (j / s.cfg.w) (c / s.cfg.w) with hk | hk | hk
  · have hcj : ¬c ≤ j := not_le.2 (Nat.lt_of_div_lt_div hk)
    simp [chainWord_of_lt hk, hcj]
  · have hc := Nat.div_add_mod c s.cfg.w
    have hj := Nat.div_add_mod j s.cfg.w
    have hcj : c % s.cfg.w ≤ j % s.cfg.w ↔ c ≤ j := by rw [hk] at hj; omega
    rw [hk, chainWord_at_cursor, Nat.testBit_and, testBit_maskBelow, logicalBit, hk, Bool.and_comm]
    simp [Nat.mod_lt j hw, hcj]
  · have hcj : c ≤ j := (Nat.lt_of_div_lt_div hk).le
    simp [chainWord_of_gt hk, hcj, logicalBit]

/-- The words SCANF reads, the first masked, are the chain's from the cursor's word on. -/
theorem maskFirst_eq_chainWords {xs : List Nat} {count : Nat} (h : memReadFrom b s count (c / s.cfg.w) = some xs) :
    maskFirst s.cfg.w (c % s.cfg.w) xs = (List.range' (c / s.cfg.w) count).map (chainWord s b c) := by
  obtain ⟨hlen, hread⟩ := memReadFrom_spec h
  refine List.ext_getElem? fun q => ?_
  rw [maskFirst_getElem?, List.getElem?_map]
  by_cases hq : q < count
  · obtain ⟨x, hx⟩ : ∃ x, xs[q]? = some x := ⟨_, List.getElem?_eq_getElem (hlen ▸ hq)⟩
    have hword := hread q hq
    rw [hx] at hword
    rw [hx, List.getElem?_range' hq, Option.map_some, Option.map_some, Nat.one_mul, Option.some.injEq]
    by_cases hq0 : q = 0
    · subst hq0
      rw [Nat.add_zero] at hword ⊢
      rw [if_pos rfl, chainWord_at_cursor, hword, Option.getD_some]
    · rw [if_neg hq0, chainWord_of_gt (by omega), hword, Option.getD_some]
  · rw [List.getElem?_eq_none (by omega), List.getElem?_eq_none (by simpa using hq)]
    rfl

/-- SCANF answers the first bit of the chain's words. -/
theorem exec_scanf (hf : s.fcause = 0#4) (hwf : Memory.wf s.cfg s.bf = true) (hb : ra.toNat < s.cfg.nb)
    (hc : c ≤ s.cfg.cap) : exec (.scanf ra c) s =
      .next (answered ((firstBit s.cfg.w s.cfg.n (chainWord s ra.toNat c)).getD 0) 0
        (firstBit s.cfg.w s.cfg.n (chainWord s ra.toNat c)).isSome s) := by
  have hcursor : c / s.cfg.w ≤ s.cfg.n := Nat.div_le_of_le_mul (Nat.mul_comm s.cfg.n _ ▸ hc)
  obtain ⟨xs, hxs⟩ : ∃ xs, memReadFrom ra.toNat s (s.cfg.n - c / s.cfg.w) (c / s.cfg.w) = some xs :=
    memReadFrom_isSome fun k _ hk => (memRead_isSome_iff hwf).2 ⟨hb, by omega⟩
  rw [exec, execScanf, guarded_of_selector hf rfl hb, if_neg (not_lt.2 hc), hxs, orFault_some,
    maskFirst_eq_chainWords hxs, firstBit_eq_scanWords hcursor fun _ => chainWord_of_lt]
  rfl

/-! ### The chain's answer (R167) -/

theorem chainCarry_iff : chainCarry s b c k = true ↔ ∀ q, q < k → chainWord s b c q = 0 := by
  induction k with
  | zero => simp [chainCarry]
  | succ k ih => rw [chainCarry, Bool.and_eq_true, ih, beq_iff_eq, Nat.forall_lt_succ_right]

/-- The word that hits is the first that is not 0. -/
theorem find?_hit_eq_firstNonzero (n : Nat) :
    ((List.range n).find? fun k => chainCarry s b c k && chainWord s b c k != 0) = firstNonzero (chainWord s b c) n := by
  cases hfirst : firstNonzero (chainWord s b c) n with
  | none =>
    have hzero := firstNonzero_eq_none_iff.1 hfirst
    exact List.find?_range_eq_none.2 fun k hk => by simp [hzero k hk]
  | some k =>
    obtain ⟨hk, hkn, hbelow⟩ := firstNonzero_eq_some_iff.1 hfirst
    exact List.find?_range_eq_some.2 ⟨by simp [chainCarry_iff.2 hbelow, hk], List.mem_range.2 hkn,
      fun q hq => by simp [hbelow q hq]⟩

theorem chainRes0_eq_firstBit : chainRes0 s b c = (firstBit s.cfg.w s.cfg.n (chainWord s b c)).getD 0 := by
  rw [chainRes0, find?_hit_eq_firstNonzero, firstBit]
  cases firstNonzero (chainWord s b c) s.cfg.n <;> rfl

theorem not_chainCarry_eq_isSome_firstBit (w n : Nat) :
    (!chainCarry s b c n) = (firstBit w n (chainWord s b c)).isSome := by
  have hnone : chainCarry s b c n = true ↔ firstNonzero (chainWord s b c) n = none :=
    chainCarry_iff.trans firstNonzero_eq_none_iff.symm
  rw [firstBit, Option.isSome_map, ← Option.not_isNone, Bool.not_inj_iff, Bool.eq_iff_iff, hnone, Option.isNone_iff_eq_none]

/-! ### SCANF on the logical bits (R162) -/

theorem exec_scanf_of_no_bit (hf : s.fcause = 0#4) (hwf : Memory.wf s.cfg s.bf = true) (hb : ra.toNat < s.cfg.nb)
    (hc : c ≤ s.cfg.cap) (hclear : ∀ j, c ≤ j → j < s.cfg.cap → logicalBit ra.toNat j s = false) :
    exec (.scanf ra c) s = .next (answered 0 0 false s) := by
  have hnone : firstBit s.cfg.w s.cfg.n (chainWord s ra.toNat c) = none :=
    firstBit_of_no_bit (fun _ => chainWord_fits hwf) fun j hj => by
      rw [testBit_chainWord (width_pos_of_lt_cap hj)]
      by_cases hcj : c ≤ j
      · rw [hclear j hcj hj, Bool.and_false]
      · simp [hcj]
  rw [exec_scanf hf hwf hb hc, hnone]
  rfl

theorem exec_scanf_of_least_bit (hf : s.fcause = 0#4) (hwf : Memory.wf s.cfg s.bf = true) (hb : ra.toNat < s.cfg.nb)
    (hcj : c ≤ j) (hj : j < s.cfg.cap) (hbit : logicalBit ra.toNat j s = true)
    (hbelow : ∀ i, c ≤ i → i < j → logicalBit ra.toNat i s = false) :
    exec (.scanf ra c) s = .next (answered j 0 true s) := by
  have hw := width_pos_of_lt_cap hj
  have hfound : firstBit s.cfg.w s.cfg.n (chainWord s ra.toNat c) = some j := by
    refine firstBit_of_least_bit (fun _ => chainWord_fits hwf) hj ?_ fun i hi => ?_
    · simp [testBit_chainWord hw, hcj, hbit]
    · rw [testBit_chainWord hw]
      by_cases hci : c ≤ i
      · rw [hbelow i hci hi, Bool.and_false]
      · simp [hci]
  rw [exec_scanf hf hwf hb (hcj.trans hj.le), hfound]
  rfl

end

/-- Settles O51: SCANF and the chain both answer the first bit of the chain's words. -/
theorem scanfEqualsTheCarryChain : Obligations.ScanfEqualsTheCarryChain := by
  intro s ra c ⟨⟨_, hwf, _⟩, hf⟩ hb hc
  rw [exec_scanf hf hwf hb hc, chainRes0_eq_firstBit, not_chainCarry_eq_isSome_firstBit s.cfg.w]

/-- Settles O50, from what SCANF answers on the logical bits and from the checks of a command with one selector. -/
theorem scanfResult : Obligations.ScanfResult := by
  refine ⟨fun s ra c hf hwf => ⟨packCmd_ra_toNat ra _, fun hb hc => ⟨?notFound, ?found⟩,
    fun hb => exec_of_selector_bankRange hf rfl hb,
    fun hb hc => guarded_of_indexRange hf rfl hb hc⟩, unusedBitsFault_of_instr (.scanf 0 0)⟩
  case notFound => exact exec_scanf_of_no_bit hf hwf hb hc
  case found => exact fun j hcj hj hbit hbelow => exec_scanf_of_least_bit hf hwf hb hcj hj hbit hbelow

section

variable {sw w x j : Nat}

/-! ### The lanes (R168): the same search one level down -/

/-- Lane `l` of `sw` bits of a word. -/
def lane (sw x l : Nat) : Nat := x / 2 ^ (l * sw) % 2 ^ sw

theorem lane_lt (sw x l : Nat) : lane sw x l < 2 ^ sw := Nat.mod_lt _ (Nat.two_pow_pos sw)

theorem testBit_lane (hsw : 0 < sw) : (lane sw x (j / sw)).testBit (j % sw) = x.testBit j := by
  rw [lane, Nat.testBit_mod_two_pow, Nat.testBit_div_two_pow, Nat.mod_add_div', decide_eq_true (Nat.mod_lt j hsw),
    Bool.true_and]

theorem ffsByLanes_eq_firstNonzero (sw w x : Nat) : ffsByLanes sw w x =
    ((firstNonzero (lane sw x) (w / sw)).map fun l => l * sw + ffs sw (lane sw x l)).getD 0 := by
  unfold ffsByLanes firstNonzero lane
  cases (List.range (w / sw)).find? fun l => x / 2 ^ (l * sw) % 2 ^ sw != 0 <;> rfl

/-- The lanes are a row of words whose bits are those of the word, so the lane found holds its least set bit. -/
theorem ffsByLanes_eq_ffs (hdvd : sw ∣ w) (hx : x < 2 ^ w) : ffsByLanes sw w x = ffs w x := by
  rw [ffsByLanes_eq_firstNonzero]
  by_cases h0 : x = 0
  · have hnone : firstNonzero (lane sw 0) (w / sw) = none := firstNonzero_eq_none_iff.2 fun l _ => by simp [lane]
    rw [h0, hnone, ffs_zero]
    rfl
  · obtain ⟨p, hp, hbit, hbelow⟩ := exists_least_testBit hx h0
    have hlanes : p < w / sw * sw := by rwa [Nat.div_mul_cancel hdvd]
    have hsw : 0 < sw := Nat.pos_of_mul_pos_left (Nat.zero_lt_of_lt hlanes)
    obtain ⟨hfirst, hffs⟩ := firstNonzero_of_least_bit (lane_lt sw x) hlanes ((testBit_lane hsw).trans hbit)
      fun i hi => (testBit_lane hsw).trans (hbelow i hi)
    rw [hfirst, Option.map_some, Option.getD_some, hffs, ffs_of_least hp hbit hbelow, ← Nat.add_assoc, Nat.div_add_mod']

end

section

variable {s : State} {i : Instr} {v : Nat}

/-! ### No operation of a command reads `SCANW` -/

/-- `s` with another native scan width. -/
def State.withScanw (v : Nat) (s : State) : State := { s with cfg := { s.cfg with scanw := v } }

theorem memReadFrom_withScanw (b count k : Nat) : memReadFrom b (s.withScanw v) count k = memReadFrom b s count k := by
  induction count generalizing k with
  | zero => rfl
  | succ count ih => simp only [memReadFrom, ih]; rfl

theorem memWrite_withScanw (b k x : Nat) :
    memWrite b k x (s.withScanw v) = (memWrite b k x s).map (State.withScanw v) := by
  simp only [memWrite, State.withScanw]
  cases s.bf[b]? with
  | none => rfl
  | some bank => by_cases hk : k < bank.length <;> simp [hk, State.withScanw]

theorem combineFrom_withScanw (op : Nat → Nat → Nat) (rd ra rb count k : Nat) :
    combineFrom op rd ra rb count k (s.withScanw v) =
      (combineFrom op rd ra rb count k s).map (State.withScanw v) := by
  induction count generalizing k s with
  | zero => rfl
  | succ count ih =>
    have hread : ∀ b, memRead b k (s.withScanw v) = memRead b k s := fun _ => rfl
    simp only [combineFrom, hread, memWrite_withScanw, Option.map_bind, Option.bind_map, Function.comp_def, ih]

theorem mapNext_orFault {α : Type} (g : State → State) (r : Option α) (f : α → Result) :
    mapNext g (orFault r f) = orFault r fun a => mapNext g (f a) := by
  cases r <;> rfl

theorem orFault_map {α β : Type} (g : α → β) (r : Option α) (f : β → Result) :
    orFault (r.map g) f = orFault r fun a => f (g a) := by
  cases r <;> rfl

theorem guarded_withScanw {body body' : Result} (h : body' = mapNext (State.withScanw v) body) :
    guarded i (s.withScanw v) body' = mapNext (State.withScanw v) (guarded i s body) := by
  simp only [h, guarded, unlessFaulted, apply_ite (mapNext _)]
  rfl

/-- No command reads or changes `SCANW`: its guards, its checks and its accesses to the store do not. -/
theorem exec_withScanw : exec i (s.withScanw v) = mapNext (State.withScanw v) (exec i s) := by
  cases i <;> refine guarded_withScanw ?_
  case ispow2 | log2 | tany | tall => rfl
  case p2align | p2alignd | ruq | bfidx =>
    simp only [apply_ite (mapNext _)]
    rfl
  case btst | rdw =>
    simp only [apply_ite (mapNext _), mapNext_orFault]
    rfl
  case scanf =>
    simp only [apply_ite (mapNext _), mapNext_orFault, memReadFrom_withScanw]
    rfl
  case bset | bclr =>
    simp only [modifyBit, apply_ite (mapNext _), mapNext_orFault, memWrite_withScanw, orFault_map]
    rfl
  case wrw =>
    simp only [apply_ite (mapNext _), mapNext_orFault, memWrite_withScanw, orFault_map]
    rfl
  case band | bxor =>
    simp only [combineBanks, mapNext_orFault, combineFrom_withScanw, orFault_map]
    rfl

end

/-- Settles O52: the lane found holds the least set bit, and no operation of a command reads `SCANW`. -/
theorem nativeScanWidthIsUnobservable : Obligations.NativeScanWidthIsUnobservable := by
  refine ⟨fun s x hcfg hx => ?_, fun s i v => exec_withScanw⟩
  obtain ⟨-, -, ⟨k, hk⟩, -⟩ := (configValid_iff _).1 hcfg
  exact ffsByLanes_eq_ffs ⟨2 ^ k, hk⟩ hx

section

variable {s t u : State} {i : Instr} {is : List Instr} {others : List (List Instr)} {b : BankSel} {c j : Nat}
  {rest : List Nat} {out : List Nat × Bool}

/-! ### The bits still to be reported (R166) -/

/-- The set bits of a bank from the cursor on, in ascending order. -/
def bitsFrom (s : State) (b c : Nat) : List Nat := (setBits s b).filter (c ≤ ·)

theorem mem_bitsFrom {b : Nat} : j ∈ bitsFrom s b c ↔ c ≤ j ∧ j < s.cfg.cap ∧ logicalBit b j s = true := by
  simp [bitsFrom, setBits, and_left_comm]

theorem bitsFrom_zero (s : State) (b : Nat) : bitsFrom s b 0 = setBits s b := by simp [bitsFrom]

theorem bitsFrom_pairwise_lt (s : State) (b c : Nat) : (bitsFrom s b c).Pairwise (· < ·) :=
  (List.pairwise_lt_range.filter _).filter _

/-- Re-seeded at the result + 1 the cursor leaves the remaining bits. -/
theorem bitsFrom_succ_of_cons {b : Nat} (h : bitsFrom s b c = j :: rest) : bitsFrom s b (j + 1) = rest := by
  obtain ⟨hcj, -⟩ := mem_bitsFrom.1 (h ▸ List.mem_cons_self)
  have hlater : ∀ i ∈ rest, j < i := fun _ => List.rel_of_pairwise_cons (h ▸ bitsFrom_pairwise_lt s b c)
  have hsplit : bitsFrom s b (j + 1) = (bitsFrom s b c).filter (j + 1 ≤ ·) := by
    rw [bitsFrom, bitsFrom, List.filter_filter]
    refine List.filter_congr fun i _ => ?_
    rw [← Bool.decide_and, decide_eq_decide]
    omega
  have hrest : rest.filter (j + 1 ≤ ·) = rest := List.filter_eq_self.2 fun i hi => decide_eq_true (hlater i hi)
  rw [hsplit, h, List.filter_cons_of_neg (by simp), hrest]

/-- SCANF answers the first of them (R162). -/
theorem exec_scanf_of_bitsFrom_nil (hs : s.Ready) (hb : b.toNat < s.cfg.nb) (hc : c ≤ s.cfg.cap)
    (h : bitsFrom s b.toNat c = []) : exec (.scanf b c) s = .next (answered 0 0 false s) := by
  obtain ⟨⟨_, hwf, _⟩, hf⟩ := hs
  refine exec_scanf_of_no_bit hf hwf hb hc fun j hcj hj => Bool.eq_false_iff.2 fun hbit => ?_
  exact List.not_mem_nil (h ▸ mem_bitsFrom.2 ⟨hcj, hj, hbit⟩)

theorem exec_scanf_of_bitsFrom_cons (hs : s.Ready) (hb : b.toNat < s.cfg.nb) (h : bitsFrom s b.toNat c = j :: rest) :
    exec (.scanf b c) s = .next (answered j 0 true s) := by
  obtain ⟨⟨_, hwf, _⟩, hf⟩ := hs
  obtain ⟨hcj, hj, hbit⟩ := mem_bitsFrom.1 (h ▸ List.mem_cons_self)
  refine exec_scanf_of_least_bit hf hwf hb hcj hj hbit fun i hci hij => Bool.eq_false_iff.2 fun hset => ?_
  have hi : i ∈ j :: rest := h ▸ mem_bitsFrom.2 ⟨hci, hij.trans hj, hset⟩
  rcases List.mem_cons.1 hi with rfl | hlater
  · exact lt_irrefl _ hij
  · exact lt_asymm hij (List.rel_of_pairwise_cons (h ▸ bitsFrom_pairwise_lt s b.toNat c) hlater)

/-! ### Commands that leave the bank (R43, R166) -/

/-- What the host may run between two SCANFs of bank `b`: a command whose operands fit and that does not write the bank. -/
def LeavesBank (p : Config) (b : Nat) (i : Instr) : Prop := i.wellFormed p = true ∧ ∀ k, ¬writesWord p i b k

/-- `t` is a ready unit with the parameters of `s` and the same bank `b`. -/
def SameBank (b : Nat) (s t : State) : Prop :=
  t.Ready ∧ t.cfg = s.cfg ∧ ∀ k, memRead b k t = memRead b k s

theorem SameBank.bitsFrom_eq {b : Nat} (h : SameBank b s t) : bitsFrom t b c = bitsFrom s b c := by
  obtain ⟨-, hcfg, hread⟩ := h
  simp only [bitsFrom, setBits, logicalBit, hcfg, hread]

theorem exec_sameBank {b : Nat} (hs : s.Ready) (hi : LeavesBank s.cfg b i) (h : exec i s = .next t)
    (ht : t.fcause = 0#4) : SameBank b s t := by
  obtain ⟨hinv, -⟩ := hs
  obtain ⟨hwell, hwrites⟩ := hi
  exact ⟨⟨exec_keeps_inv hinv hwell h, ht⟩, (exec_keeps_cfg_pending h).1,
    fun k => exec_memory_frame h fun hw => hwrites k hw.1⟩

theorem runAll_sameBank {b : Nat} (hs : s.Ready) (his : ∀ i ∈ is, LeavesBank s.cfg b i) (h : runAll is s = some t) :
    SameBank b s t := by
  induction is generalizing s with
  | nil => cases h; exact ⟨hs, rfl, fun _ => rfl⟩
  | cons i is ih =>
    rw [List.forall_mem_cons] at his
    obtain ⟨hi, his⟩ := his
    rw [runAll] at h
    split at h
    next u hu =>
      split at h
      next hf =>
        obtain ⟨huReady, hcfg, hread⟩ := exec_sameBank hs hi hu hf
        obtain ⟨htReady, hcfg', hread'⟩ := ih huReady (hcfg ▸ his) h
        exact ⟨htReady, hcfg'.trans hcfg, fun k => (hread' k).trans (hread k)⟩
      next => cases h
    next => cases h
    next => cases h

/-- SCANF is itself such a command, so the unit it has answered is as it was. -/
theorem answered_sameBank {r0 : Nat} {f : Bool} (hs : s.Ready) (hc : c ≤ s.cfg.cap)
    (h : exec (.scanf b c) s = .next (answered r0 0 f s)) : SameBank b.toNat s (answered r0 0 f s) := by
  have ⟨⟨hcfg, _⟩, hf⟩ := hs
  have hfits : s.cfg.fits c := by
    cases c with
    | zero => exact fits_zero _
    | succ j => exact (fits_of_lt_cap hcfg hc).2
  have hleaves : LeavesBank s.cfg b.toNat (.scanf b c) := ⟨decide_eq_true hfits, fun _ => id⟩
  exact exec_sameBank hs hleaves h hf

/-! ### The loop (R166) -/

theorem enumerateAmid_cons_of_not_found (hrun : runAll is s = some t) (hf : t.fcause = 0#4)
    (hscan : exec (.scanf b c) t = .next (answered 0 0 false t)) :
    enumerateAmid b (is :: others) c s = some ([], true) := by
  simp [enumerateAmid, hrun, hscan, answered, hf]

theorem enumerateAmid_cons_of_found (hrun : runAll is s = some t) (hf : t.fcause = 0#4)
    (hscan : exec (.scanf b c) t = .next (answered j 0 true t)) :
    enumerateAmid b (is :: others) c s =
      (enumerateAmid b others (j + 1) (answered j 0 true t)).map fun rest => (j :: rest.1, rest.2) := by
  simp [enumerateAmid, hrun, hscan, answered, hf]

/-- With as many SCANFs as there are lists of other commands, the loop reports that many of the bits from the cursor on, and
has ended when they were fewer. -/
theorem enumerateAmid_eq (hs : s.Ready) (hb : b.toNat < s.cfg.nb) (hc : c ≤ s.cfg.cap)
    (hothers : ∀ is ∈ others, ∀ i ∈ is, LeavesBank s.cfg b.toNat i) (h : enumerateAmid b others c s = some out) :
    out = ((bitsFrom s b.toNat c).take others.length, decide ((bitsFrom s b.toNat c).length < others.length)) := by
  induction others generalizing s c out with
  | nil => cases h; simp
  | cons is others ih =>
    rw [List.forall_mem_cons] at hothers
    obtain ⟨his, hothers⟩ := hothers
    obtain ⟨t, hrun, -⟩ := Option.bind_eq_some_iff.1 h
    have hbank := runAll_sameBank hs his hrun
    rw [← hbank.bitsFrom_eq]
    obtain ⟨htReady, hcfg, -⟩ := hbank
    have ⟨_, hf⟩ := htReady
    rw [← hcfg] at hb hc hothers
    cases hbits : bitsFrom t b.toNat c with
    | nil =>
      have hscan := exec_scanf_of_bitsFrom_nil htReady hb hc hbits
      rw [enumerateAmid_cons_of_not_found hrun hf hscan] at h
      cases h
      simp
    | cons j rest =>
      have hscan := exec_scanf_of_bitsFrom_cons htReady hb hbits
      rw [enumerateAmid_cons_of_found hrun hf hscan] at h
      obtain ⟨out', hout', rfl⟩ := Option.map_eq_some_iff.1 h
      have hbank' := answered_sameBank htReady hc hscan
      have ⟨huReady, _⟩ := hbank'
      obtain ⟨-, hj, -⟩ := mem_bitsFrom.1 (hbits ▸ List.mem_cons_self)
      have hout := ih huReady hb hj hothers hout'
      rw [hbank'.bitsFrom_eq, bitsFrom_succ_of_cons hbits] at hout
      simp [hout]

/-- The uninterrupted loop is the loop with no other command before any SCANF. -/
theorem enumerateAmid_replicate_nil (b : BankSel) (calls c : Nat) (s : State) :
    enumerateAmid b (List.replicate calls []) c s = some (enumerate b calls c s) := by
  induction calls generalizing c s with
  | zero => rfl
  | succ calls ih =>
    rw [List.replicate_succ, enumerateAmid, enumerate, runAll, Option.bind_some]
    cases exec (.scanf b c) s with
    | next t =>
      cases hr : t.response with
      | none => simp [hr]
      | some r => by_cases hfault : r.fault = 0#4 <;> cases hflag : r.flag <;> simp [hr, hfault, hflag, ih]
    | fault | refused => rfl

theorem enumerate_eq (hs : s.Ready) (hb : b.toNat < s.cfg.nb) (calls : Nat) :
    enumerate b calls 0 s = ((setBits s b.toNat).take calls, decide ((setBits s b.toNat).length < calls)) := by
  have hnone : ∀ is ∈ List.replicate calls [], ∀ i ∈ is, LeavesBank s.cfg b.toNat i := by
    rintro _ his i hi
    cases (List.mem_replicate.1 his).2 ▸ hi
  have h := enumerateAmid_eq hs hb (Nat.zero_le _) hnone (enumerateAmid_replicate_nil b calls 0 s)
  rwa [bitsFrom_zero, List.length_replicate] at h

end

/-- Settles O53: with one call more than there are set bits the loop ends, with as many it has reported them all. -/
theorem enumerationReportsEverySetBitOnce : Obligations.EnumerationReportsEverySetBitOnce := by
  intro s b hs hb
  rw [enumerate_eq hs hb, enumerate_eq hs hb]
  simp

/-- Settles O58, from what the loop reports with any number of SCANFs. -/
theorem enumerationSurvivesOtherCommands : Obligations.EnumerationSurvivesOtherCommands := by
  intro s b others out hs hb hlen hothers h
  rw [enumerateAmid_eq hs hb (Nat.zero_le _) hothers h, bitsFrom_zero, hlen]
  simp

end Sys2Proof.Machine

/-! SUPPORT. Host word access (46_host_word_access.md): RDW and WRW are one read and one write of the store, and WRW
commands one after another replace the words of a bank one after another. -/

namespace Sys2Proof.Machine

open Sys2Proof.Claims

section

variable {s t u : State} {i : Instr} {rd : BankSel} {b k v x p n : Nat} {bank words : List Nat} {rest : List HostAction}

/-! ### What each command does on an unfaulted unit (R180, R181) -/

theorem exec_rdw_of_lt (hf : s.fcause = 0#4) (hb : rd.toNat < s.cfg.nb) (hk : k < s.cfg.n)
    (hx : memRead rd.toNat k s = some x) : exec (.rdw rd k) s = .next (answered x 0 false s) := by
  rw [exec, execRdw, guarded_of_selector hf rfl hb, if_neg (not_le.2 hk), hx]
  rfl

theorem exec_wrw_of_lt (hf : s.fcause = 0#4) (hb : rd.toNat < s.cfg.nb) (hk : k < s.cfg.n)
    (hu : memWrite rd.toNat k v s = some u) : exec (.wrw rd k v) s = .next (answered 0 0 false u) := by
  rw [exec, execWrw, guarded_of_selector hf rfl hb, if_neg (not_le.2 hk), hu]
  rfl

/-- A word that exists can be written (R40). -/
theorem exists_memWrite_of_wf (hwf : Memory.wf s.cfg s.bf = true) (hb : b < s.cfg.nb) (hk : k < s.cfg.n) :
    ∃ u, memWrite b k v s = some u :=
  Option.isSome_iff_exists.1 (memWrite_isSome.trans ((memRead_isSome_iff hwf).2 ⟨hb, hk⟩))

/-- The bits of word `k` are the `W` logical bits from `k·W` on (R21). -/
theorem logicalBit_mul_add (hx : memRead b k s = some x) (hp : p < s.cfg.w) :
    logicalBit b (k * s.cfg.w + p) s = x.testBit p := by
  have hword : (k * s.cfg.w + p) / s.cfg.w = k := Nat.div_eq_of_lt_le (by omega) (by rw [Nat.succ_mul]; omega)
  rw [logicalBit, hword, hx, Option.getD_some, Nat.mul_add_mod', Nat.mod_eq_of_lt hp]

theorem mul_add_lt_cap {c : Config} (hk : k < c.n) (hp : p < c.w) : k * c.w + p < c.cap :=
  calc k * c.w + p < k * c.w + c.w := Nat.add_lt_add_left hp _
    _ = (k + 1) * c.w := (Nat.succ_mul k c.w).symm
    _ ≤ c.n * c.w := Nat.mul_le_mul_right c.w hk

/-! ### WRW commands one after another (R182, R231) -/

/-- A word index is an operand: there are no more words than bits (R6 b). -/
theorem fits_of_lt_n {c : Config} (h : configValid c = true) (hk : k < c.n) : c.fits k := by
  have hw : 0 < c.w := by have := configValid_width h; omega
  exact (fits_of_lt_cap h (hk.trans_le (Nat.le_mul_of_pos_right c.n hw))).1

/-- A step that serves an instruction's command is that instruction on the rest of the host's list. -/
theorem step_of_encode (hcfg : configValid s.cfg = true) (hi : (encode i).wellFormed s.cfg = true)
    (hp : s.pending = .command (encode i) :: rest) : step s = exec i { s with pending := rest } :=
  (step_of_command hcfg hp).trans (issue_of_decode_ok (s := { s with pending := rest }) hi (decode_encode i))

theorem core_run_succ_of_step (h : step s = .next t) : core.run (n + 1) s = core.run n t := by
  have hstep : core.step s = .next t := h
  simp [Host.Core.run, hstep]

/-- The write of R40 as an update of the list of banks. -/
theorem memWrite_of_bank (hbank : s.bf[b]? = some bank) (hk : k < bank.length) :
    memWrite b k v s = some { s with bf := s.bf.set b (bank.set k v) } := by
  simp [memWrite, hbank, hk]

/-- An unfaulted unit that has a bank `b`, whose words are `bank`. -/
def HoldsBank (b : Nat) (bank : List Nat) (s : State) : Prop :=
  configValid s.cfg = true ∧ s.fcause = 0#4 ∧ b < s.cfg.nb ∧ bank.length = s.cfg.n ∧ s.bf[b]? = some bank

theorem holdsBank_of_ready (hs : s.Ready) (hb : b < s.cfg.nb) : ∃ bank, HoldsBank b bank s := by
  obtain ⟨⟨hcfg, hwf, _⟩, hf⟩ := hs
  obtain ⟨hbanks, hshape⟩ := (Memory.wf_iff _ _).1 hwf
  have hbank : b < s.bf.length := hbanks ▸ hb
  obtain ⟨hlen, -⟩ := hshape _ (List.getElem_mem hbank)
  exact ⟨_, hcfg, hf, hb, hlen, List.getElem?_eq_getElem hbank⟩

/-- A store is as it was once a bank is written back to it. -/
theorem HoldsBank.set_eq (h : HoldsBank b bank s) : s.bf.set b bank = s.bf := by
  obtain ⟨-, -, -, -, hbank⟩ := h
  obtain ⟨hb, rfl⟩ := List.getElem?_eq_some_iff.1 hbank
  exact List.set_getElem_self hb

/-- A step that serves a WRW command replaces the one word in the bank. -/
theorem HoldsBank.step_wrw (h : HoldsBank rd.toNat bank s) (hk : k < s.cfg.n) (hx : s.cfg.fits x)
    (hp : s.pending = .command (encode (.wrw rd k x)) :: rest) :
    ∃ t, step s = .next t ∧ HoldsBank rd.toNat (bank.set k x) t ∧ t.cfg = s.cfg ∧ t.pending = rest ∧
      t.bf = s.bf.set rd.toNat (bank.set k x) := by
  obtain ⟨hcfg, hf, hb, hlen, hbank⟩ := h
  have hwell : (encode (.wrw rd k x)).wellFormed s.cfg = true := by
    simp [Command.wellFormed, encode, encodeOpa, encodeOpb, fits_of_lt_n hcfg hk, hx]
  have hwrite := memWrite_of_bank (s := { s with pending := rest }) (v := x) hbank (hlen ▸ hk)
  obtain ⟨hrd, -⟩ := List.getElem?_eq_some_iff.1 hbank
  exact ⟨_, (step_of_encode hcfg hwell hp).trans (exec_wrw_of_lt (s := { s with pending := rest }) hf hb hk hwrite),
    ⟨hcfg, hf, hb, List.length_set.trans hlen, List.getElem?_set_self hrd⟩, rfl, rfl, rfl⟩

/-- The WRW commands from word `k` to the last replace the words of the bank from `k` on and leave those before it. -/
theorem HoldsBank.core_run_writeAll (h : HoldsBank rd.toNat bank s) (hlen : k + words.length = s.cfg.n)
    (hfits : ∀ x ∈ words, s.cfg.fits x) (hp : s.pending = writeAll rd k words) :
    ∃ t, core.run words.length s = .next t ∧ t.fcause = 0#4 ∧ t.pending = [] ∧
      t.bf = s.bf.set rd.toNat (bank.take k ++ words) := by
  induction words generalizing s k bank with
  | nil =>
    have ⟨_, hf, _, hn, _⟩ := h
    have hall : bank.take k = bank := List.take_of_length_le (hn.trans hlen.symm).le
    exact ⟨s, rfl, hf, hp, by rw [List.append_nil, hall, h.set_eq]⟩
  | cons x xs ih =>
    have ⟨_, _, _, hn, _⟩ := h
    rw [List.length_cons] at hlen
    rw [List.forall_mem_cons] at hfits
    obtain ⟨hx, hxs⟩ := hfits
    have hk : k < s.cfg.n := by omega
    obtain ⟨u, hu, hheld, hcfg, hpending, hbf⟩ := h.step_wrw hk hx hp
    have hlen' : k + 1 + xs.length = u.cfg.n := by rw [hcfg]; omega
    obtain ⟨t, hrun, htf, htp, htbf⟩ := ih hheld hlen' (hcfg ▸ hxs) hpending
    have htake : (bank.set k x).take (k + 1) = bank.take k ++ [x] := by
      rw [List.take_add_one, List.take_set_of_le le_rfl, List.getElem?_set_self (hn ▸ hk), Option.toList_some]
    refine ⟨t, (core_run_succ_of_step hu).trans hrun, htf, htp, ?_⟩
    rw [htbf, hbf, List.set_set, htake, List.append_assoc, List.singleton_append]

end

/-! ### The statements of 46_host_word_access.md -/

/-- Settles O55: the one write of the store, and the checks of a command with one selector. -/
theorem wrwResult : Obligations.WrwResult := by
  refine ⟨fun s rd k data hf hwf => ⟨packCmd_rd_toNat rd _, fun hb hk => ?written,
    fun hb => exec_of_selector_bankRange hf rfl hb,
    fun hb hk => guarded_of_indexRange hf rfl hb hk⟩, unusedBitsFault_of_instr (.wrw 0 0 0)⟩
  case written =>
    obtain ⟨u, hu⟩ := exists_memWrite_of_wf hwf hb hk
    obtain ⟨hframe, -, hread⟩ := memWrite_spec hu
    exact ⟨_, exec_wrw_of_lt hf hb hk hu, congrArg (answered 0 0 false) hframe, hread⟩

/-- Settles O56: the word reads back as written, and its bits are the logical bits BTST answers. -/
theorem readAfterWrite : Obligations.ReadAfterWrite := by
  intro s d k v ⟨⟨_, hwf, _⟩, hf⟩ hb hk hv
  obtain ⟨u, hu⟩ := exists_memWrite_of_wf (v := v) hwf hb hk
  obtain ⟨hframe, -, hread⟩ := memWrite_spec hu
  have hword : memRead d.toNat k (answered 0 0 false u) = some v := (hread _ _).trans (if_pos ⟨rfl, rfl⟩)
  have hwrite := exec_wrw_of_lt hf hb hk hu
  obtain ⟨htcfg, -⟩ := exec_keeps_cfg_pending hwrite
  have htf : (answered 0 0 false u).fcause = 0#4 := by rw [hframe]; exact hf
  have htwf : Memory.wf s.cfg (answered 0 0 false u).bf = true := memWrite_keeps_wf (t := u) hu hwf hv
  rw [← htcfg] at hb hk htwf ⊢
  refine ⟨_, hwrite, exec_rdw_of_lt htf hb hk hword, fun p hp => ?_⟩
  rw [exec_btst_eq_logicalBit htf htwf hb (mul_add_lt_cap hk hp), logicalBit_mul_add hword hp]

/-- Settles O57: from word 0 on, the words replaced are the whole bank. -/
theorem writingEveryWordInitialisesABank : Obligations.WritingEveryWordInitialisesABank := by
  intro s d words hs hb hlen hfits
  obtain ⟨bank, hbank⟩ := holdsBank_of_ready hs hb
  have hpresented : HoldsBank d.toNat bank { s with pending := writeAll d 0 words } := hbank
  rw [← hlen]
  exact hpresented.core_run_writeAll ((Nat.zero_add _).trans hlen) hfits rfl

/-- Settles O54: the one read of the store, and the checks of a command with one selector. -/
theorem rdwResult : Obligations.RdwResult := by
  refine ⟨fun s ra k hf hwf => ⟨packCmd_ra_toNat ra _, fun hb hk => ?read,
    fun hb => exec_of_selector_bankRange hf rfl hb,
    fun hb hk => guarded_of_indexRange hf rfl hb hk⟩, unusedBitsFault_of_instr (.rdw 0 0)⟩
  case read =>
    obtain ⟨x, hx, -⟩ := memRead_of_wf hwf hb hk
    exact ⟨x, hx, exec_rdw_of_lt hf hb hk hx⟩

end Sys2Proof.Machine

/-! SUPPORT. Exceptions (60_exceptions.md): the one cause an instruction raises, which the table of R201 in the order of
R202 names and the fault registers then record; fault entry; the faulted unit; what raises no fault. -/

namespace Sys2Proof.Machine

open Sys2Proof.Claims

section

variable {p : Config} {c : Command} {i j : Instr} {s t u : State} {cause : Cause} {o o' : Option Cause} {body : Result}

/-! ### The faulted unit (R204) -/

theorem exec_of_faulted (hf : s.fcause ≠ 0#4) : exec i s = .next (answered 0 0 false s) := by
  obtain ⟨body, hexec, -⟩ := exec_eq_guarded i s
  exact hexec.trans (guarded_of_faulted hf)

theorem issue_of_faulted (hf : s.fcause ≠ 0#4) (hc : c.wellFormed s.cfg = true) :
    issue c s = .next (answered 0 0 false s) := by
  cases hdec : decode c with
  | ok i => rw [issue_of_decode_ok hc hdec, exec_of_faulted hf]
  | error e =>
    rw [issue_of_decode_error hc hdec, illegalCommand, unlessFaulted, if_neg hf]
    rfl

/-- No interaction but RESET changes the fault registers of a faulted unit, or its store (R205). -/
theorem step_of_faulted (hf : s.fcause ≠ 0#4) (hreset : ∀ rest, s.pending ≠ .reset :: rest) (h : step s = .next t) :
    t.fcause = s.fcause ∧ t.fcmd = s.fcmd ∧ t.bf = s.bf := by
  obtain ⟨-, ⟨-, rfl⟩ | ⟨rest, hp, -⟩ | ⟨c, rest, -, hc, hissue⟩⟩ := serveHost_next_cases h
  · exact ⟨rfl, rfl, rfl⟩
  · exact absurd hp (hreset rest)
  · cases (issue_of_faulted (s := { s with pending := rest }) hf hc).symm.trans hissue
    exact ⟨rfl, rfl, rfl⟩

/-! ### The cause of an instruction (R201, R202) -/

/-- The operand check that fails, if one does: `INDEX_RANGE`, `ALIGN_NOT_POW2` or `DIVIDE_BY_ZERO`, and after them
`ALIGN_OVERFLOW` (R201). -/
def operandCause (p : Config) : Instr → Option Cause
  | .p2align value alignment =>
    if ispow2 p.w alignment then if 2 ^ p.w ≤ alignUp value alignment then some .alignOverflow else none
    else some .alignNotPow2
  | .p2alignd _ alignment => if ispow2 p.w alignment then none else some .alignNotPow2
  | .ruq _ divisor => if divisor = 0 then some .divideByZero else none
  | .bfidx k | .btst _ k | .bset _ k | .bclr _ k => if p.cap ≤ k then some .indexRange else none
  | .scanf _ cursor => if p.cap < cursor then some .indexRange else none
  | .rdw _ k | .wrw _ k _ => if p.n ≤ k then some .indexRange else none
  | .ispow2 _ | .log2 _ | .tany _ _ | .tall _ _ | .band _ _ _ | .bxor _ _ _ => none

/-- The cause an instruction raises on an unfaulted unit: its selectors are checked before its operands (R202). -/
def instrCause (p : Config) (i : Instr) : Option Cause :=
  if ∃ sel ∈ selectorsOf i, p.nb ≤ sel.toNat then some .bankRange else operandCause p i

/-- What the cause `o` makes of the next state: fault entry, or none and the fault registers as they were. -/
def Raises (o : Option Cause) (i : Instr) (s : State) (body : Result) : Prop :=
  ∀ t, body = .next t → match o with
    | some cause => t = raiseFault cause (encodeCmd i) s
    | none => t.fcause = s.fcause ∧ t.fcmd = s.fcmd

namespace Raises

theorem complete {r0 r1 : Nat} {f : Bool} (hu : u = { s with bf := u.bf }) :
    Raises none i s (.next (complete r0 r1 f u)) := by
  rintro _ ⟨⟩
  rw [hu]
  exact ⟨rfl, rfl⟩

theorem faultOf : Raises (some cause) i s (faultOf cause i s) := by
  rintro _ ⟨⟩
  rfl

theorem ite {q : Prop} [Decidable q] {a b : Result} (ha : Raises o i s a) (hb : Raises o' i s b) :
    Raises (if q then o else o') i s (if q then a else b) := by
  split
  · exact ha
  · exact hb

theorem orFault {α : Type} {r : Option α} {f : α → Result} (h : ∀ a, r = some a → Raises o i s (f a)) :
    Raises o i s (orFault r f) := fun t ht =>
  let ⟨a, ha, hf⟩ := orFault_next_iff.1 ht
  h a ha t hf

theorem modifyBit {f : Nat → Nat → Nat} {rd : BankSel} {k : Nat} : Raises none i s (modifyBit f rd k s) :=
  orFault fun _ _ => orFault fun _ hu => complete (memWrite_spec hu).1

theorem combineBanks {op : Nat → Nat → Nat} {rd ra rb : BankSel} : Raises none i s (combineBanks op rd ra rb s) :=
  orFault fun _ hu => complete (combineFrom_spec hu).1

/-- Step 3 of R72 comes before the pseudocode. -/
theorem guarded (hf : s.fcause = 0#4) (h : Raises (operandCause s.cfg i) i s body) :
    Raises (instrCause s.cfg i) i s (guarded i s body) := by
  unfold instrCause
  split
  next hout =>
    rw [guarded_of_bankRange hf hout]
    exact faultOf
  next hin =>
    push Not at hin
    rwa [guarded_of_ready hf hin]

end Raises

/-- On an unfaulted unit every instruction raises its cause, and that alone (R201, R202). -/
theorem exec_raises (hf : s.fcause = 0#4) : Raises (instrCause s.cfg i) i s (exec i s) := by
  cases i with
  | ispow2 | log2 | tany | tall => exact .guarded hf (.complete rfl)
  | p2align => exact .guarded hf (.ite (.ite .faultOf (.complete rfl)) .faultOf)
  | p2alignd => exact .guarded hf (.ite (.complete rfl) .faultOf)
  | ruq | bfidx => exact .guarded hf (.ite .faultOf (.complete rfl))
  | btst | scanf | rdw => exact .guarded hf (.ite .faultOf (.orFault fun _ _ => .complete rfl))
  | bset | bclr => exact .guarded hf (.ite .faultOf .modifyBit)
  | band | bxor => exact .guarded hf .combineBanks
  | wrw => exact .guarded hf (.ite .faultOf (.orFault fun _ hu => .complete (memWrite_spec hu).1))

theorem exec_of_unfaulted_cases (hf : s.fcause = 0#4) (h : exec i s = .next t) :
    (instrCause s.cfg i = none ∧ t.fcause = s.fcause ∧ t.fcmd = s.fcmd) ∨
      ∃ cause, instrCause s.cfg i = some cause ∧ t = raiseFault cause (encodeCmd i) s := by
  have hraise := exec_raises hf t h
  split at hraise
  next cause hcause => exact .inr ⟨cause, hcause, hraise⟩
  next hnone => exact .inl ⟨hnone, hraise⟩

/-! ### The command word of a cause (R201) -/

/-- Which instructions raise a cause, by their opcodes and selectors. -/
def CanRaise (p : Config) (i : Instr) : Cause → Prop
  | .illegalCmd => False
  | .bankRange => ∃ sel ∈ selectorsOf i, p.nb ≤ sel.toNat
  | .indexRange => opcodeOf i ∈ [0x08#8, 0x09#8, 0x0A#8, 0x0B#8, 0x0E#8, 0x0F#8, 0x10#8] ∧
      ∀ sel ∈ selectorsOf i, sel.toNat < p.nb
  | .alignNotPow2 => opcodeOf i = 0x02#8 ∨ opcodeOf i = 0x03#8
  | .divideByZero => opcodeOf i = 0x05#8
  | .alignOverflow => opcodeOf i = 0x02#8

theorem canRaise_of_operandCause (hsel : ∀ sel ∈ selectorsOf i, sel.toNat < p.nb)
    (h : operandCause p i = some cause) : CanRaise p i cause := by
  cases i with
  | ispow2 | log2 | tany | tall | band | bxor => cases h
  | p2align | p2alignd | ruq =>
    simp only [operandCause] at h
    repeat' split at h
    all_goals cases h
    all_goals simp [CanRaise, opcodeOf]
  | bfidx | btst | bset | bclr | scanf | rdw | wrw =>
    simp only [operandCause] at h
    split at h <;> cases h
    exact ⟨by simp [opcodeOf], hsel⟩

theorem canRaise_of_instrCause (h : instrCause p i = some cause) : CanRaise p i cause := by
  unfold instrCause at h
  split at h
  next hout =>
    cases h
    exact hout
  next hin =>
    push Not at hin
    exact canRaise_of_operandCause hin h

/-- The selectors are fields of the command word (R61, R62). -/
theorem selectorsOf_eq_fields (i : Instr) : selectorsOf i = match formatOf i with
    | .S => []
    | .A => [fieldRa (encodeCmd i)]
    | .D => [fieldRd (encodeCmd i)]
    | .T => [fieldRd (encodeCmd i), fieldRa (encodeCmd i), fieldRb (encodeCmd i)] := by
  cases i <;> simp [selectorsOf, formatOf, encodeCmd]

/-- The command word alone decodes to an instruction with the same opcode and the same selectors. -/
theorem decode_encodeCmd (i : Instr) : ∃ j, decode ⟨encodeCmd i, 0, 0⟩ = .ok j ∧
    opcodeOf j = opcodeOf i ∧ selectorsOf j = selectorsOf i := by
  obtain ⟨hunused, hop⟩ := encodeCmd_inTable i
  obtain ⟨j, hj, hformat⟩ := assemble_of_opcodeOf (c := ⟨encodeCmd i, 0, 0⟩) hop.symm
  have hdec := decode_eq_ok_iff_assemble.2 ⟨hj, hformat ▸ hunused⟩
  obtain ⟨hword, -⟩ := decode_eq_ok_iff.1 hdec
  refine ⟨j, hdec, (opcodeOf_of_assemble hj).trans hop, ?_⟩
  rw [selectorsOf_eq_fields, selectorsOf_eq_fields, hformat, hword]

theorem CanRaise.congr (hop : opcodeOf j = opcodeOf i) (hsel : selectorsOf j = selectorsOf i)
    (h : CanRaise p i cause) : CanRaise p j cause := by
  unfold CanRaise at h ⊢
  rwa [hop, hsel]

/-! ### The fault record (R27, R201) -/

theorem causeRecordFits_of_decode_ok (hdec : decode ⟨encodeCmd i, 0, 0⟩ = .ok j) (h : CanRaise p j cause) :
    causeRecordFits p (causeCode cause) (encodeCmd i) := by
  unfold causeRecordFits
  rw [hdec]
  cases cause with
  | illegalCmd => exact h.elim
  | bankRange | indexRange | alignNotPow2 | divideByZero | alignOverflow => exact h

/-- What an instruction's own cause records. -/
theorem causeRecordFits_of_instrCause (h : instrCause p i = some cause) :
    causeRecordFits p (causeCode cause) (encodeCmd i) := by
  obtain ⟨j, hdec, hop, hsel⟩ := decode_encodeCmd i
  exact causeRecordFits_of_decode_ok hdec ((canRaise_of_instrCause h).congr hop hsel)

/-- Whether a command decodes is a matter of its word alone (R63, R65). -/
theorem causeRecordFits_of_illegal {e : DecodeError} (h : decode c = .error e) :
    causeRecordFits p (causeCode .illegalCmd) c.cmd := by
  cases hdec : decode ⟨c.cmd, 0, 0⟩ with
  | ok j =>
    obtain ⟨i, hi⟩ := (decodes_iff_legal (c := c)).2 ((decodes_iff_legal (c := ⟨c.cmd, 0, 0⟩)).1 ⟨j, hdec⟩)
    exact absurd (h.symm.trans hi) nofun
  | error =>
    unfold causeRecordFits
    rw [hdec]
    trivial

theorem exec_keeps_record (h0 : causeRecordFits s.cfg s.fcause s.fcmd) (h : exec i s = .next t) :
    causeRecordFits s.cfg t.fcause t.fcmd := by
  by_cases hf : s.fcause = 0#4
  · rcases exec_of_unfaulted_cases hf h with ⟨-, hcause, hcmd⟩ | ⟨cause, hcause, rfl⟩
    · rwa [hcause, hcmd]
    · exact causeRecordFits_of_instrCause hcause
  · cases (exec_of_faulted hf).symm.trans h
    exact h0

theorem issue_keeps_record (h0 : causeRecordFits s.cfg s.fcause s.fcmd) (h : issue c s = .next t) :
    causeRecordFits s.cfg t.fcause t.fcmd := by
  rcases issue_next_cases h with ⟨i, -, hexec⟩ | ⟨⟨e, hdec⟩, ⟨-, rfl⟩ | ⟨-, rfl⟩⟩
  · exact exec_keeps_record h0 hexec
  · exact h0
  · exact causeRecordFits_of_illegal hdec

/-! ### Fault entry and the table (R201 to R203) -/

/-- What a command that faults does, legal or not. -/
theorem issue_next_of_fault (hf : s.fcause = 0#4) (h : issue c s = .next t) (ht : t.fcause ≠ 0#4) :
    ∃ cause, t = raiseFault cause c.cmd s := by
  rcases issue_next_cases h with ⟨i, hdec, hexec⟩ | ⟨-, ⟨hne, -⟩ | ⟨-, rfl⟩⟩
  · rcases exec_of_unfaulted_cases hf hexec with ⟨-, hcause, -⟩ | ⟨cause, -, rfl⟩
    · exact absurd (hcause.trans hf) ht
    · obtain ⟨hword, -⟩ := decode_eq_ok_iff.1 hdec
      exact ⟨cause, by rw [hword]⟩
  · exact absurd hf hne
  · exact ⟨.illegalCmd, rfl⟩

/-- The code of a cause, 0 for none (R26, R200). -/
def codeOf (o : Option Cause) : BitVec 4 := o.elim 0#4 causeCode

@[simp] theorem codeOf_none : codeOf none = 0#4 := rfl

@[simp] theorem codeOf_some : codeOf (some cause) = causeCode cause := rfl

@[simp] theorem codeOf_ite {q : Prop} [Decidable q] :
    codeOf (if q then o else o') = if q then codeOf o else codeOf o' :=
  apply_ite ..

theorem any_two_pow_eq_ispow2 {w v : Nat} (hv : v < 2 ^ w) :
    ((List.range w).any fun e => v == 2 ^ e) = ispow2 w v := by
  rw [Bool.eq_iff_iff, ispow2_iff_exponent_lt hv]
  simp

/-- On a legal word the table gives the code of the instruction's cause: its fields are the instruction's selectors, its
operands the instruction's. -/
theorem faultCodeOf_of_decode_ok (hdec : decode c = .ok i) (hc : c.wellFormed p = true) :
    faultCodeOf p c = codeOf (instrCause p i) := by
  have hlegal := decodes_iff_legal.1 ⟨i, hdec⟩
  obtain ⟨hword, hopa, hopb⟩ := decode_eq_ok_iff.1 hdec
  obtain ⟨-, hop⟩ := encodeCmd_inTable i
  obtain ⟨-, hfits⟩ : p.fits c.opa ∧ p.fits c.opb := by simpa [Command.wellFormed] using hc
  simp only [faultCodeOf, hlegal, any_two_pow_eq_ispow2 hfits, ← fieldOp_toNat, ← fieldRd_toNat, ← fieldRa_toNat,
    ← fieldRb_toNat]
  rw [← hword, hop]
  cases i with
  | ispow2 | log2 | tany | tall | band | bxor =>
    simp [instrCause, operandCause, selectorsOf, encodeCmd, opcodeOf, causeCode]
  | p2align value alignment =>
    obtain rfl : value = c.opa := hopa
    obtain rfl : alignment = c.opb := hopb
    by_cases hpow : ispow2 p.w c.opb = true
    · have hover := alignUp_fits_iff (value := c.opa) hfits ((ispow2_iff hfits).1 hpow)
      rw [← not_iff_not, not_lt, not_le] at hover
      simp [instrCause, operandCause, selectorsOf, opcodeOf, causeCode, hpow, hover]
    · simp [instrCause, operandCause, selectorsOf, opcodeOf, causeCode, hpow]
  | p2alignd value alignment =>
    obtain rfl : alignment = c.opb := hopb
    by_cases hpow : ispow2 p.w c.opb = true <;>
      simp [instrCause, operandCause, selectorsOf, opcodeOf, causeCode, hpow]
  | ruq dividend divisor =>
    obtain rfl : divisor = c.opb := hopb
    simp [instrCause, operandCause, selectorsOf, opcodeOf, causeCode]
  | bfidx k | btst _ k | bset _ k | bclr _ k | scanf _ k | rdw _ k | wrw _ k =>
    obtain rfl : k = c.opa := hopa
    simp [instrCause, operandCause, selectorsOf, encodeCmd, opcodeOf, causeCode]

theorem faultCodeOf_of_illegalWord (h : illegalWord c.cmd.toNat = true) : faultCodeOf p c = 1#4 := by
  simp [faultCodeOf, h]

end

section

variable {s t : State} {c : Command} {rd : BankSel} {b j w x q : Nat} {f op : Nat → Nat → Nat} {v : Bool}

/-! ### A bit written with the value it has (R206) -/

/-- The word is as it was. -/
theorem WritesMaskedBit.eq_self (h : WritesMaskedBit w f v) (hq : q < w) (hx : x < 2 ^ w) (hf : f x (2 ^ q) < 2 ^ w)
    (hv : x.testBit q = v) : f x (2 ^ q) = x := by
  refine word_ext hf hx fun p hp => ?_
  rw [h x p q hp hq]
  split
  next hpq => rw [hpq, hv]
  next => rfl

/-- So is the store. -/
theorem BitModified.eq_answered (hs : s.Inv) (ht : t.Inv) (hj : j < s.cfg.cap) (h : BitModified f b j s t x)
    (hf : WritesMaskedBit s.cfg.w f v) (hv : logicalBit b j s = v) : t = answered 0 0 false s := by
  obtain ⟨-, hwf, -⟩ := hs
  obtain ⟨-, htwf, -⟩ := ht
  obtain ⟨hframe, hx, hread⟩ := h
  have hcfg : t.cfg = s.cfg := by rw [hframe]; rfl
  have hpos : j % s.cfg.w < s.cfg.w := Nat.mod_lt j (width_pos_of_lt_cap hj)
  have hwritten : memRead b (j / s.cfg.w) t = some (f x (2 ^ (j % s.cfg.w))) := (hread _ _).trans (if_pos ⟨rfl, rfl⟩)
  have hfits := memRead_fits htwf hwritten
  rw [hcfg] at htwf hfits
  have hbit : x.testBit (j % s.cfg.w) = v := by rw [← hv, logicalBit, hx, Option.getD_some]
  have hsame : f x (2 ^ (j % s.cfg.w)) = x := hf.eq_self hpos (memRead_fits hwf hx) hfits hbit
  have hbf : s.bf = t.bf := bf_ext_of_reads hwf htwf fun b' k => by
    rw [hread, hsame]
    split
    next hbk => rw [hbk.1, hbk.2, hx]
    next => rfl
  rw [hframe, ← hbf]

theorem exec_bset_of_set_bit (hs : s.Ready) (hb : rd.toNat < s.cfg.nb) (hj : j < s.cfg.cap)
    (hbit : logicalBit rd.toNat j s = true) : exec (.bset rd j) s = .next (answered 0 0 false s) := by
  have ⟨hinv, hf⟩ := hs
  have ⟨hcfg, hwf, _⟩ := hinv
  have hi : (Instr.bset rd j).wellFormed s.cfg = true := decide_eq_true (fits_of_lt_cap hcfg hj).1
  obtain ⟨t, x, ht, hmod⟩ := exec_bset_bitModified hf hwf hb hj
  rw [ht, hmod.eq_answered hinv (exec_keeps_inv hinv hi ht) hj (writesMaskedBit_or _) hbit]

theorem exec_bclr_of_clear_bit (hs : s.Ready) (hb : rd.toNat < s.cfg.nb) (hj : j < s.cfg.cap)
    (hbit : logicalBit rd.toNat j s = false) : exec (.bclr rd j) s = .next (answered 0 0 false s) := by
  have ⟨hinv, hf⟩ := hs
  have ⟨hcfg, hwf, _⟩ := hinv
  have hi : (Instr.bclr rd j).wellFormed s.cfg = true := decide_eq_true (fits_of_lt_cap hcfg hj).1
  obtain ⟨t, x, ht, hmod⟩ := exec_bclr_bitModified hf hwf hb hj
  rw [ht, hmod.eq_answered hinv (exec_keeps_inv hinv hi ht) hj (writesMaskedBit_and_wordNot _) hbit]

/-! ### Sweeps and ignored ports (R206) -/

/-- A sweep leaves the cause register. -/
theorem Combined.fcause_eq {d a : Nat} (h : Combined op d a b s t) : t.fcause = s.fcause := by
  obtain ⟨hframe, -⟩ := h
  rw [hframe]
  rfl

/-- A command with 0 on the ports its instruction ignores fits the ports. -/
theorem wellFormed_ignored_zero (i : Instr) (hc : c.wellFormed s.cfg = true) :
    Command.wellFormed s.cfg ⟨c.cmd, if usesOpa i then c.opa else 0, if usesOpb i then c.opb else 0⟩ = true := by
  obtain ⟨ha, hb⟩ : s.cfg.fits c.opa ∧ s.cfg.fits c.opb := by simpa [Command.wellFormed] using hc
  have hport : ∀ (used : Bool) {x : Nat}, s.cfg.fits x → s.cfg.fits (if used then x else 0) := by
    rintro (_ | _) x hx
    · exact fits_zero _
    · exact hx
  exact Bool.and_eq_true_iff.2 ⟨decide_eq_true (hport _ ha), decide_eq_true (hport _ hb)⟩

end

/-! ### The statements of 60_exceptions.md -/

/-- Settles O21, interaction by interaction: an idle unit keeps the record, RESET clears it, and a command keeps it or
records its own cause. -/
theorem stepKeepsTheFaultRecordTrue : Obligations.StepKeepsTheFaultRecordTrue := by
  intro s t h0 h
  obtain ⟨-, ⟨-, rfl⟩ | ⟨rest, -, rfl⟩ | ⟨c, rest, -, -, hissue⟩⟩ := serveHost_next_cases h
  · exact h0
  · exact rfl
  · obtain ⟨hcfg, -⟩ := issue_keeps_cfg_pending hissue
    rw [hcfg]
    exact issue_keeps_record (s := { s with pending := rest }) h0 hissue

/-- Settles O16: a word R63 or R65 names is fault entry with `ILLEGAL_CMD`, and any other raises the cause of its
instruction. -/
theorem faultTableAndPriority : Obligations.FaultTableAndPriority := by
  intro s c ⟨⟨_, hwf, _⟩, hf⟩ hc
  cases hdec : decode c with
  | error e =>
    have hillegal : illegalWord c.cmd.toNat = true := Bool.eq_true_of_not_eq_false fun hlegal =>
      let ⟨_, hi⟩ := decodes_iff_legal.2 hlegal
      absurd (hdec.symm.trans hi) nofun
    rw [faultCodeOf_of_illegalWord hillegal]
    exact ⟨_, issue_of_illegalWord hf hc hillegal, rfl, fun _ => rfl⟩
  | ok i =>
    obtain ⟨t, ht⟩ := exec_isNext (i := i) hwf
    obtain ⟨hword, -⟩ := decode_eq_ok_iff.1 hdec
    rw [issue_of_decode_ok hc hdec, faultCodeOf_of_decode_ok hdec hc]
    refine ⟨t, ht, ?_⟩
    rcases exec_of_unfaulted_cases hf ht with ⟨hnone, hcause, -⟩ | ⟨cause, hcause, rfl⟩
    · rw [hnone]
      exact ⟨hcause.trans hf, fun hne => absurd rfl hne⟩
    · rw [hcause, hword]
      exact ⟨rfl, fun _ => rfl⟩

/-- Settles O18: what an instruction raises carries its own command word, and an illegal word its own. -/
theorem faultEntryIsPrecise : Obligations.FaultEntryIsPrecise := by
  intro s t c hf h ht
  obtain ⟨cause, rfl⟩ := issue_next_of_fault hf h ht
  obtain ⟨-, hrange⟩ := causeCode_range cause
  exact ⟨rfl, hrange⟩

/-- Settles O19: the guard of a faulted unit comes before the decode and before every check. -/
theorem faultedUnitIgnoresEveryCommand : Obligations.FaultedUnitIgnoresEveryCommand := fun _ hf =>
  ⟨fun _ => exec_of_faulted hf, fun _ hc => issue_of_faulted hf hc⟩

/-- Settles O20: every interaction but RESET is idle or an ignored command. -/
theorem onlyResetLeavesTheFaultedState : Obligations.OnlyResetLeavesTheFaultedState := by
  intro s t hf h
  by_cases hreset : ∃ rest, s.pending = .reset :: rest
  · exact .inr hreset
  · exact .inl (step_of_faulted hf (not_exists.1 hreset) h)

/-- Settles O22, clause by clause: no bit to find, a bit already written, existing banks and words, ignored ports. -/
theorem whatIsNotAFault : Obligations.WhatIsNotAFault := by
  intro s b b' b'' hs hb hb' hb''
  have ⟨⟨_, hwf, _⟩, hf⟩ := hs
  have hsel := banksExist_of_lt hb hb' hb''
  refine ⟨?log, fun c hc hclear => exec_scanf_of_no_bit hf hwf hb hc hclear,
    exec_scanf_of_no_bit hf hwf hb le_rfl fun j hcj hj => absurd hj (not_lt.2 hcj),
    fun x y => ⟨_, _, exec_tany hf x y, exec_tall hf x y⟩, fun i hi hbit => exec_bset_of_set_bit hs hb hi hbit,
    fun i hi hbit => exec_bclr_of_clear_bit hs hb hi hbit, ?band, ?bxor, fun k hk => ?word, fun i c hdec hc => ?ports⟩
  case log =>
    obtain ⟨hzero, -⟩ := log2floor_spec (fits_zero s.cfg)
    rw [exec_log2 hf, hzero rfl]
  case band =>
    obtain ⟨t, ht, hcomb⟩ := exec_band_combined hf hwf hsel
    exact ⟨t, ht, hcomb.fcause_eq.trans hf⟩
  case bxor =>
    obtain ⟨t, ht, hcomb⟩ := exec_bxor_combined hf hwf hsel
    exact ⟨t, ht, hcomb.fcause_eq.trans hf⟩
  case word =>
    obtain ⟨x, hx, -⟩ := memRead_of_wf hwf hb hk
    exact ⟨x, hx, exec_rdw_of_lt hf hb hk hx⟩
  case ports =>
    exact (ignoredOperandsHaveNoEffect s c _ i hc (wellFormed_ignored_zero i hc) rfl hdec (fun h => if_pos h)
      fun h => if_pos h).symm

end Sys2Proof.Machine

/-! SUPPORT. Reset and hazards (70_reset_and_hazards.md): runs over the host's list, in which a fault sticks until
RESET, and two commands on disjoint banks, either of which does the same on the store the other leaves. -/

namespace Sys2Proof.Machine

open Sys2Proof.Claims

section

variable {s t u : State} {m n k : Nat}

/-! ### Runs (R237) -/

theorem core_run_succ_next (h : core.run (n + 1) s = .next t) : ∃ u, step s = .next u ∧ core.run n u = .next t := by
  cases hs : step s with
  | next u => exact ⟨u, rfl, (core_run_succ_of_step hs).symm.trans h⟩
  | fault r | refused r =>
    have hstep : core.step s = step s := rfl
    simp [Host.Core.run, hstep, hs] at h

/-- What every step keeps, every run keeps. -/
theorem core_run_induct {P : State → Prop} (hstep : ∀ s t, P s → step s = .next t → P t) (hs : P s)
    (h : core.run n s = .next t) : P t := by
  induction n generalizing s with
  | zero => cases h; exact hs
  | succ n ih =>
    obtain ⟨u, hu, hrest⟩ := core_run_succ_next h
    exact ih (hstep s u hs hu) hrest

theorem core_run_add (h : core.run k s = .next u) (m : Nat) : core.run (k + m) s = core.run m u := by
  induction k generalizing s with
  | zero => cases h; rw [Nat.zero_add]
  | succ k ih =>
    obtain ⟨v, hv, hrest⟩ := core_run_succ_next h
    rw [Nat.succ_add, core_run_succ_of_step hv, ih hrest]

/-- A run over the host's list ends with the list exhausted. -/
theorem core_run_exhausts (hs : s.Inv) (hn : s.pending.length = n) :
    ∃ t, core.run n s = .next t ∧ t.pending = [] ∧ t.Inv := by
  induction n generalizing s with
  | zero => exact ⟨s, rfl, List.length_eq_zero_iff.1 hn, hs⟩
  | succ n ih =>
    obtain ⟨u, hu⟩ := step_isNext hs
    obtain ⟨-, htail⟩ := step_keeps_cfg_and_drops_head hu
    have hlen : u.pending.length = n := by rw [htail, List.length_tail, hn, Nat.add_sub_cancel]
    obtain ⟨t, ht, hend⟩ := ih (step_keeps_inv hs hu) hlen
    exact ⟨t, (core_run_succ_of_step hu).trans ht, hend⟩

/-! ### Runs without RESET (R204, R237) -/

/-- The host will present no RESET. -/
def NoReset (s : State) : Prop := ∀ a ∈ s.pending, a ≠ .reset

theorem NoReset.pending_ne (h : NoReset s) (rest : List HostAction) : s.pending ≠ .reset :: rest := fun hp =>
  h .reset (hp ▸ List.mem_cons_self) rfl

theorem NoReset.step (h : NoReset s) (hstep : step s = .next t) : NoReset t := by
  obtain ⟨-, htail⟩ := step_keeps_cfg_and_drops_head hstep
  exact fun a ha => h a (List.mem_of_mem_tail (htail ▸ ha))

theorem NoReset.run (h : NoReset s) (hrun : core.run n s = .next t) : NoReset t :=
  core_run_induct (fun _ _ => NoReset.step) h hrun

/-- A fault sticks: the run has no effect on the machine. -/
theorem NoReset.run_of_faulted (h : NoReset s) (hf : s.fcause ≠ 0#4) (hrun : core.run n s = .next t) :
    t.bf = s.bf ∧ t.fcause = s.fcause ∧ t.fcmd = s.fcmd := by
  have hstep : ∀ u v, NoReset u ∧ u.bf = s.bf ∧ u.fcause = s.fcause ∧ u.fcmd = s.fcmd → Machine.step u = .next v →
      NoReset v ∧ v.bf = s.bf ∧ v.fcause = s.fcause ∧ v.fcmd = s.fcmd := by
    rintro u v ⟨hno, hbf, hcause, hcmd⟩ huv
    obtain ⟨hcause', hcmd', hbf'⟩ := step_of_faulted (hcause ▸ hf) hno.pending_ne huv
    exact ⟨hno.step huv, hbf'.trans hbf, hcause'.trans hcause, hcmd'.trans hcmd⟩
  obtain ⟨-, hsame⟩ := core_run_induct hstep ⟨h, rfl, rfl, rfl⟩ hrun
  exact hsame

/-- So a run that ends unfaulted was unfaulted before. -/
theorem NoReset.unfaulted_before (h : NoReset s) (hrun : core.run n s = .next t) (ht : t.fcause = 0#4) :
    s.fcause = 0#4 := by
  by_contra hf
  obtain ⟨-, hcause, -⟩ := h.run_of_faulted hf hrun
  exact hf (hcause.symm.trans ht)

/-- A step without RESET is idle or leaves a response. -/
theorem NoReset.step_answers (h : NoReset s) (hstep : Machine.step s = .next t) : t = s ∨ t.response.isSome = true := by
  obtain ⟨-, ⟨-, rfl⟩ | ⟨rest, hp, -⟩ | ⟨c, rest, -, -, hissue⟩⟩ := serveHost_next_cases hstep
  · exact .inl rfl
  · exact absurd hp (h.pending_ne rest)
  · obtain ⟨r0, r1, f, u, rfl⟩ := issue_next_eq_complete hissue
    exact .inr rfl

theorem NoReset.run_answers (h : NoReset s) (hrun : core.run n s = .next t) : t = s ∨ t.response.isSome = true := by
  have hstep : ∀ u v, NoReset u ∧ (u = s ∨ u.response.isSome = true) → Machine.step u = .next v →
      NoReset v ∧ (v = s ∨ v.response.isSome = true) := by
    rintro u v ⟨hno, hu⟩ huv
    refine ⟨hno.step huv, ?_⟩
    rcases hno.step_answers huv with rfl | hv
    · exact hu
    · exact .inr hv
  obtain ⟨-, hend⟩ := core_run_induct hstep ⟨h, .inl rfl⟩ hrun
  exact hend

/-- A response shows the cause register of the state it stands in (R28). -/
theorem fault_of_response {r : Response} (hs : s.Inv) (hr : r ∈ s.response) : r.fault = s.fcause := by
  obtain ⟨-, -, -, -, hresp, -⟩ := hs
  obtain ⟨-, -, hfault, -⟩ := hresp r hr
  exact hfault

/-- In a run that ends unfaulted no response on the way shows a fault. -/
theorem NoReset.responses_of_unfaulted {r : Response} (h : NoReset s) (hs : s.Inv) (hrun : core.run n s = .next t)
    (ht : t.fcause = 0#4) (hk : k ≤ n) (hu : core.run k s = .next u) (hr : r ∈ u.response) : r.fault = 0#4 := by
  obtain ⟨m, rfl⟩ := Nat.exists_eq_add_of_le hk
  rw [core_run_add hu] at hrun
  rw [fault_of_response (core_run_induct (fun _ _ => step_keeps_inv) hs hu) hr]
  exact (h.run hu).unfaulted_before hrun ht

/-- A run that starts unfaulted and whose last response, if one stands, shows no fault ends unfaulted. -/
theorem NoReset.unfaulted_of_response (h : NoReset s) (hf : s.fcause = 0#4) (hrun : core.run n s = .next t) (ht : t.Inv)
    (hresp : 1 ≤ n → ∀ r ∈ t.response, r.fault = 0#4) : t.fcause = 0#4 := by
  rcases Nat.eq_zero_or_pos n with rfl | hn
  · cases hrun
    exact hf
  · rcases h.run_answers hrun with rfl | hsome
    · exact hf
    · obtain ⟨r, hr⟩ := Option.isSome_iff_exists.1 hsome
      exact (fault_of_response ht hr).symm.trans (hresp hn r hr)

end

section

variable {s s' t u : State} {i j : Instr} {b k v : Nat} {c : Config}

/-! ### The shape of the store (R21) -/

/-- Two stores with as many banks, of the same lengths, that read alike are equal. -/
theorem bf_ext_of_shape (hshape : s.bf.map List.length = t.bf.map List.length)
    (h : ∀ b k, memRead b k s = memRead b k t) : s.bf = t.bf := by
  have hlen : s.bf.length = t.bf.length := by simpa using congrArg List.length hshape
  refine List.ext_getElem hlen fun b h₁ h₂ => List.ext_getElem? fun k => ?_
  simpa [memRead, List.getElem?_eq_getElem h₁, List.getElem?_eq_getElem h₂] using h b k

theorem memWrite_keeps_shape (h : memWrite b k v s = some t) : t.bf.map List.length = s.bf.map List.length := by
  unfold memWrite at h
  split at h
  · cases h
  next bank hbank =>
    split at h
    · cases h
      obtain ⟨hb, rfl⟩ := List.getElem?_eq_some_iff.1 hbank
      have hlen : (s.bf.map List.length)[b]'(by simpa using hb) = (s.bf[b].set k v).length := by simp
      rw [List.map_set, ← hlen, List.set_getElem_self]
    · cases h

theorem combineFrom_keeps_shape {op : Nat → Nat → Nat} {rd ra rb count : Nat}
    (h : combineFrom op rd ra rb count k s = some t) : t.bf.map List.length = s.bf.map List.length := by
  induction count generalizing k s with
  | zero => cases h; rfl
  | succ count ih =>
    obtain ⟨x, -, h⟩ := Option.bind_eq_some_iff.1 h
    obtain ⟨y, -, h⟩ := Option.bind_eq_some_iff.1 h
    obtain ⟨u, hu, h⟩ := Option.bind_eq_some_iff.1 h
    rw [ih h, memWrite_keeps_shape hu]

theorem StoreEffect.keeps_shape (h : StoreEffect s i t) : t.bf.map List.length = s.bf.map List.length := by
  cases h with
  | none => rfl
  | bset _ _ h | bclr _ _ h | wrw _ h => exact memWrite_keeps_shape h
  | band h | bxor h => exact combineFrom_keeps_shape h

theorem exec_keeps_shape (h : exec i s = .next t) : t.bf.map List.length = s.bf.map List.length := by
  rcases exec_next_cases h with ⟨-, rfl⟩ | ⟨-, cause, -, rfl⟩ | ⟨-, -, u, r0, r1, f, heff, rfl⟩
  · rfl
  · rfl
  · exact heff.keeps_shape

/-! ### The banks of a command (R43) -/

/-- A selector of the instruction names bank `b`. -/
def UsesBank (i : Instr) (b : Nat) : Prop := ∃ sel ∈ selectorsOf i, b = sel.toNat

theorem usesBank_of_readsWord (h : readsWord s i b k) : UsesBank i b := by
  cases i with
  | ispow2 | p2align | p2alignd | log2 | ruq | tany | tall | bfidx | wrw => exact h.elim
  | btst | bset | bclr | scanf | rdw =>
    obtain ⟨rfl, -⟩ := h
    exact ⟨_, List.mem_singleton_self _, rfl⟩
  | band | bxor =>
    obtain ⟨rfl | rfl, -⟩ := h
    · exact ⟨_, by simp [selectorsOf], rfl⟩
    · exact ⟨_, by simp [selectorsOf], rfl⟩

theorem usesBank_of_writesWord (h : writesWord c i b k) : UsesBank i b := by
  cases i with
  | ispow2 | p2align | p2alignd | log2 | ruq | tany | tall | bfidx | btst | scanf | rdw => exact h.elim
  | bset | bclr | wrw | band | bxor =>
    obtain ⟨rfl, -⟩ := h
    exact ⟨_, List.mem_cons_self, rfl⟩

/-- A command leaves every bank its selectors do not name. -/
theorem exec_keeps_unused_bank (h : exec i s = .next t) (hb : ¬UsesBank i b) : memRead b k t = memRead b k s :=
  exec_memory_frame h fun hboth => hb (usesBank_of_writesWord hboth.1)

theorem not_usesBank_of_disjoint (h : ∀ a ∈ selectorsOf i, ∀ b ∈ selectorsOf j, a ≠ b) (hj : UsesBank j b) :
    ¬UsesBank i b := by
  rintro ⟨a, ha, rfl⟩
  obtain ⟨a', ha', heq⟩ := hj
  exact h a ha a' ha' (BitVec.eq_of_toNat_eq heq)

/-! ### A command on another store (R43, R234) -/

/-- The two states differ in `BF` and in the last response alone. -/
def SameUnit (s s' : State) : Prop := s' = { s with bf := s'.bf, response := s'.response }

theorem SameUnit.symm (h : SameUnit s s') : SameUnit s' s := by
  rw [SameUnit] at h ⊢
  rw [h]

theorem exec_sameUnit (h : exec i s = .next t) (ht : t.fcause = 0#4) : s.fcause = 0#4 ∧ SameUnit s t := by
  rcases exec_next_cases h with ⟨hf, rfl⟩ | ⟨-, cause, -, rfl⟩ | ⟨hf, -, u, r0, r1, f, heff, rfl⟩
  · exact absurd ht hf
  · exact absurd ht (causeCode_ne_zero cause)
  · refine ⟨hf, ?_⟩
    rw [heff.frame]
    rfl

/-- On a store that agrees on the banks it uses, whatever the last response, a command gives the same response and
leaves the same words where it met the same words. -/
theorem exec_of_sameUnit (hw : 0 < s.cfg.w) (hs : SameUnit s s')
    (hloc : ∀ b k, (memRead b k s').isSome = (memRead b k s).isSome)
    (hread : ∀ b, UsesBank i b → ∀ k, memRead b k s' = memRead b k s) (h : exec i s = .next t) (ht : t.fcause = 0#4) :
    ∃ t', exec i s' = .next t' ∧ t'.response = t.response ∧ t'.fcause = 0#4 ∧
      ∀ b k, memRead b k s' = memRead b k s → memRead b k t' = memRead b k t := by
  obtain ⟨t', h', hframe, hwritten⟩ :=
    exec_sameAnswer hw hloc (fun b k hr => hread b (usesBank_of_readsWord hr) k) t h
  have hother : s' = ({ s with bf := s'.bf } : State).withOutside s'.response s.pending s.resets := hs
  have hexec : exec i s' = .next (t'.withHost s.pending s.resets) := by
    rw [hother, exec_withOutside, h']
    rfl
  refine ⟨_, hexec, by rw [hframe]; rfl, by rw [hframe]; exact ht, fun b k hsame => ?_⟩
  by_cases hwrites : writesWord s.cfg i b k
  · exact hwritten b k ⟨hwrites, ht⟩
  · have hkeep' : memRead b k t' = memRead b k { s with bf := s'.bf } := exec_memory_frame h' (mt And.left hwrites)
    have hkeep : memRead b k t = memRead b k s := exec_memory_frame h (mt And.left hwrites)
    exact hkeep'.trans (hsame.trans hkeep.symm)

end

/-! ### The statements of 70_reset_and_hazards.md -/

/-- Settles O15: without RESET a fault sticks, and the last response of a run shows the cause register it ends with. -/
theorem runsTerminateAndFaultsStick : Obligations.RunsTerminateAndFaultsStick := by
  intro s hs
  obtain ⟨t, hrun, hend, ht⟩ := core_run_exhausts hs rfl
  refine ⟨t, hrun, hend, ht, fun (hno : NoReset s) => ⟨fun hf => hno.run_of_faulted hf hrun, ?_, ?_⟩⟩
  · intro (hwell : t.fcause = 0#4)
    exact ⟨hno.unfaulted_before hrun hwell, fun k u _ hk hu r hr => hno.responses_of_unfaulted hs hrun hwell hk hu hr⟩
  · rintro ⟨hf, hresp⟩
    exact hno.unfaulted_of_response hf hrun ht fun hn => hresp _ t hn le_rfl hrun

/-- Settles O29: neither command writes a bank the other uses, so each does the same on the store the other leaves, and
a bank ends as the one command that may use it leaves it. -/
theorem commandsOnDisjointBanksCommute : Obligations.CommandsOnDisjointBanksCommute := by
  intro s t u i j ⟨⟨hcfg, _⟩, _⟩ hdisj hi hj hu
  have hw : 0 < s.cfg.w := by have := configValid_width hcfg; omega
  have hji : ∀ {b}, UsesBank j b → ¬UsesBank i b := not_usesBank_of_disjoint hdisj
  obtain ⟨htf, -⟩ := exec_sameUnit hj hu
  obtain ⟨-, hst⟩ := exec_sameUnit hi htf
  have htw : 0 < t.cfg.w := by rwa [(exec_keeps_cfg_pending hi).1]
  obtain ⟨t', ht', hresp, htf', hjsame⟩ := exec_of_sameUnit htw hst.symm (fun _ _ => (exec_keeps_locations hi).symm)
    (fun b hb k => (exec_keeps_unused_bank hi (hji hb)).symm) hj hu
  obtain ⟨-, hst'⟩ := exec_sameUnit ht' htf'
  obtain ⟨u', hu', hresp', huf', hisame⟩ := exec_of_sameUnit hw hst' (fun _ _ => exec_keeps_locations ht')
    (fun b hb k => exec_keeps_unused_bank ht' fun hb' => hji hb' hb) hi htf
  refine ⟨t', u', ht', hu', hresp, hresp', bf_ext_of_shape ?shape fun b k => ?reads, huf'⟩
  case shape => rw [exec_keeps_shape hu', exec_keeps_shape ht', exec_keeps_shape hj, exec_keeps_shape hi]
  case reads =>
    by_cases hb : UsesBank j b
    · calc memRead b k u' = memRead b k t' := exec_keeps_unused_bank hu' (hji hb)
        _ = memRead b k u := hjsame b k (exec_keeps_unused_bank hi (hji hb)).symm
    · calc memRead b k u' = memRead b k t := hisame b k (exec_keeps_unused_bank ht' hb)
        _ = memRead b k u := (exec_keeps_unused_bank hj hb).symm

/-- Settles O9: a fresh store is in canonical form, whatever it holds. -/
theorem resetClearsTheFaultRegisters : Obligations.ResetClearsTheFaultRegisters := fun _ _ hcfg hp =>
  ⟨_, step_of_reset hcfg hp, rfl, rfl, freshStore_wf _ _, rfl, rfl, rfl⟩

end Sys2Proof.Machine
